-- ==== Sys2Proof/Word.lean ====
section
/-! DEFINITION. The machine's words: bytes, 16-bit words, register numbers (R7, R10, 00_scope.md and 10_state.md).
Every value of this machine is an unsigned integer of a stated width (R7). -/

namespace Sys2Proof

/-- An 8-bit value: a general register, a timer, a memory cell (R10, R15, R17). -/
abbrev Byte := BitVec 8

/-- A 16-bit value: `I`, `PC`, a stack slot, an opcode (R12, R13, R14, R60). -/
abbrev Word := BitVec 16

/-- A 12-bit absolute address field (R62). -/
abbrev Addr := BitVec 12

/-- A 4-bit sub-field of an opcode (R61). -/
abbrev Nibble := BitVec 4

/-- A general register's index, 0 to 15 (R10, R62). -/
abbrev Reg := Fin 16

/-- The index of VF, the flag register (R11). -/
abbrev vfIndex : Reg := 15

end Sys2Proof
end

