-- ==== Sys2Proof/Syntax.lean ====
section
/-! DEFINITION. The instructions as syntax: one constructor per row of spec/opcode_table.json, in the table's order
(R66, 30_encoding.md). -/

namespace Sys2Proof

/-- The 35 entries of the opcode table (R66). -/
inductive Instr where
  /-- `0nnn` but 00E0 and 00EE: no behaviour of its own (R69, R100). -/
  | sys (addr : Addr)
  /-- `00E0` (R150). -/
  | cls
  /-- `00EE` (R101). -/
  | ret
  /-- `1nnn` (R102). -/
  | jp (addr : Addr)
  /-- `2nnn` (R103). -/
  | call (addr : Addr)
  /-- `3xkk` (R105). -/
  | seImm (x : Reg) (kk : Byte)
  /-- `4xkk` (R106). -/
  | sneImm (x : Reg) (kk : Byte)
  /-- `5xy0` (R107). -/
  | seReg (x y : Reg)
  /-- `6xkk` (R120). -/
  | ldImm (x : Reg) (kk : Byte)
  /-- `7xkk` (R121). -/
  | addImm (x : Reg) (kk : Byte)
  /-- `8xy0` (R122). -/
  | ldReg (x y : Reg)
  /-- `8xy1` (R123). -/
  | or (x y : Reg)
  /-- `8xy2` (R124). -/
  | and (x y : Reg)
  /-- `8xy3` (R125). -/
  | xor (x y : Reg)
  /-- `8xy4` (R126). -/
  | addReg (x y : Reg)
  /-- `8xy5` (R127). -/
  | sub (x y : Reg)
  /-- `8xy6`; `y` is decoded and not used (R128, R67). -/
  | shr (x y : Reg)
  /-- `8xy7` (R129). -/
  | subn (x y : Reg)
  /-- `8xyE`; `y` is decoded and not used (R130, R67). -/
  | shl (x y : Reg)
  /-- `9xy0` (R108). -/
  | sneReg (x y : Reg)
  /-- `Annn` (R140). -/
  | ldI (addr : Addr)
  /-- `Bnnn` (R104). -/
  | jpV0 (addr : Addr)
  /-- `Cxkk` (R131). -/
  | rnd (x : Reg) (kk : Byte)
  /-- `Dxyn` (R151). -/
  | drw (x y : Reg) (n : Fin 16)
  /-- `Ex9E` (R160). -/
  | skp (x : Reg)
  /-- `ExA1` (R161). -/
  | sknp (x : Reg)
  /-- `Fx07`, `LD Vx, DT` (R162). -/
  | ldFromDT (x : Reg)
  /-- `Fx0A`, `LD Vx, K` (R163). -/
  | ldKey (x : Reg)
  /-- `Fx15`, `LD DT, Vx` (R164). -/
  | ldDT (x : Reg)
  /-- `Fx18`, `LD ST, Vx` (R165). -/
  | ldST (x : Reg)
  /-- `Fx1E`, `ADD I, Vx` (R141). -/
  | addI (x : Reg)
  /-- `Fx29`, `LD F, Vx` (R142). -/
  | ldF (x : Reg)
  /-- `Fx33`, `LD B, Vx` (R143). -/
  | ldB (x : Reg)
  /-- `Fx55`, `LD [I], Vx` (R144). -/
  | storeRegs (x : Reg)
  /-- `Fx65`, `LD Vx, [I]` (R145). -/
  | loadRegs (x : Reg)
  deriving DecidableEq, Repr

end Sys2Proof
end

