-- ==== Sys2Proof/Decode.lean ====
section
/-! DEFINITION. From bytes to instructions and back: the field split (R61, R62), the opcode map (R66), strict matching
(R67, D2), the unrecognized words (R68), and the encoder written from the same map. -/

namespace Sys2Proof

/-- Why no instruction was read. -/
inductive DecodeError where
  /-- Fewer than two bytes: every instruction is one 16-bit word (R60). -/
  | truncated
  /-- The word is of no row of the opcode map (R67, R68); running it is R85, not a stop. -/
  | unrecognized (w : Word)
  deriving DecidableEq, Repr

/-! ## Fields (R61, R62) -/

/-- `op = w[15:12]`. -/
def fieldOp (w : Word) : Nibble := w.extractLsb' 12 4

/-- `n1 = w[11:8]`. -/
def fieldN1 (w : Word) : Nibble := w.extractLsb' 8 4

/-- `n2 = w[7:4]`. -/
def fieldN2 (w : Word) : Nibble := w.extractLsb' 4 4

/-- `n3 = w[3:0]`. -/
def fieldN3 (w : Word) : Nibble := w.extractLsb' 0 4

/-- `x = n1`, a register index. -/
def fieldX (w : Word) : Reg := (fieldN1 w).toFin

/-- `y = n2`, a register index. -/
def fieldY (w : Word) : Reg := (fieldN2 w).toFin

/-- `n = n3`, a sprite height. -/
def fieldN (w : Word) : Fin 16 := (fieldN3 w).toFin

/-- `kk = w[7:0]`, also the minor opcode `fn8`. -/
def fieldKK (w : Word) : Byte := w.extractLsb' 0 8

/-- `addr = w[11:0]`. -/
def fieldAddr (w : Word) : Addr := w.extractLsb' 0 12

/-! ## Decoding (R66, R67) -/

/-- Major opcode 0: two whole-word forms, and `SYS` for every other word (R66 rows 1 to 3). -/
def decodeOp0 (w : Word) : Instr :=
  if w = 0x00E0#16 then .cls
  else if w = 0x00EE#16 then .ret
  else .sys (fieldAddr w)

/-- Major opcode 8, by the minor opcode `n3` (R66 rows 11 to 19). -/
def decodeOp8 (w : Word) : Except DecodeError Instr :=
  match (fieldN3 w).toNat with
  | 0x0 => .ok (.ldReg (fieldX w) (fieldY w))
  | 0x1 => .ok (.or (fieldX w) (fieldY w))
  | 0x2 => .ok (.and (fieldX w) (fieldY w))
  | 0x3 => .ok (.xor (fieldX w) (fieldY w))
  | 0x4 => .ok (.addReg (fieldX w) (fieldY w))
  | 0x5 => .ok (.sub (fieldX w) (fieldY w))
  | 0x6 => .ok (.shr (fieldX w) (fieldY w))
  | 0x7 => .ok (.subn (fieldX w) (fieldY w))
  | 0xE => .ok (.shl (fieldX w) (fieldY w))
  | _ => .error (.unrecognized w)

/-- Major opcode E, by the minor opcode `fn8` (R66 rows 25, 26). -/
def decodeOpE (w : Word) : Except DecodeError Instr :=
  match (fieldKK w).toNat with
  | 0x9E => .ok (.skp (fieldX w))
  | 0xA1 => .ok (.sknp (fieldX w))
  | _ => .error (.unrecognized w)

/-- Major opcode F, by the minor opcode `fn8` (R66 rows 27 to 35). -/
def decodeOpF (w : Word) : Except DecodeError Instr :=
  match (fieldKK w).toNat with
  | 0x07 => .ok (.ldFromDT (fieldX w))
  | 0x0A => .ok (.ldKey (fieldX w))
  | 0x15 => .ok (.ldDT (fieldX w))
  | 0x18 => .ok (.ldST (fieldX w))
  | 0x1E => .ok (.addI (fieldX w))
  | 0x29 => .ok (.ldF (fieldX w))
  | 0x33 => .ok (.ldB (fieldX w))
  | 0x55 => .ok (.storeRegs (fieldX w))
  | 0x65 => .ok (.loadRegs (fieldX w))
  | _ => .error (.unrecognized w)

/-- The decoder (R67), a pure function of the word (R83). The words of the `SYS` row decode to `sys`, whose meaning is
that of an unrecognized word (R69, C1). -/
def decodeWord (w : Word) : Except DecodeError Instr :=
  match (fieldOp w).toNat with
  | 0x0 => .ok (decodeOp0 w)
  | 0x1 => .ok (.jp (fieldAddr w))
  | 0x2 => .ok (.call (fieldAddr w))
  | 0x3 => .ok (.seImm (fieldX w) (fieldKK w))
  | 0x4 => .ok (.sneImm (fieldX w) (fieldKK w))
  | 0x5 => if fieldN3 w = 0x0#4 then .ok (.seReg (fieldX w) (fieldY w)) else .error (.unrecognized w)
  | 0x6 => .ok (.ldImm (fieldX w) (fieldKK w))
  | 0x7 => .ok (.addImm (fieldX w) (fieldKK w))
  | 0x8 => decodeOp8 w
  | 0x9 => if fieldN3 w = 0x0#4 then .ok (.sneReg (fieldX w) (fieldY w)) else .error (.unrecognized w)
  | 0xA => .ok (.ldI (fieldAddr w))
  | 0xB => .ok (.jpV0 (fieldAddr w))
  | 0xC => .ok (.rnd (fieldX w) (fieldKK w))
  | 0xD => .ok (.drw (fieldX w) (fieldY w) (fieldN w))
  | 0xE => decodeOpE w
  | _ => decodeOpF w

/-- Two bytes make an opcode, the byte of the lower address in the high bits (R43). -/
def wordOfBytes (hi lo : Byte) : Word := hi ++ lo

/-- The byte of an opcode that stands at the lower address (R43). -/
def highByte (w : Word) : Byte := w.extractLsb' 8 8

/-- The byte of an opcode that stands at the higher address (R43). -/
def lowByte (w : Word) : Byte := w.extractLsb' 0 8

/-- Decode the instruction at the head of a list of bytes and give the bytes after it (R60: one length only). -/
def decode : List Byte → Except DecodeError (Instr × List Byte)
  | hi :: lo :: rest => (decodeWord (wordOfBytes hi lo)).map fun i => (i, rest)
  | _ => .error .truncated

/-- The word is one of the 34 recognized forms (R67); the words of the `SYS` row are not (R69). -/
def recognized (w : Word) : Bool :=
  match decodeWord w with
  | .ok (.sys _) => false
  | .ok _ => true
  | .error _ => false

/-! ## Encoding (R63, R66) -/

/-- Format `A`: `op`, a 12-bit address. -/
def wordA (op : Nibble) (addr : Addr) : Word := op ++ addr

/-- Format `XK`: `op`, a register, a byte. -/
def wordXK (op : Nibble) (x : Reg) (kk : Byte) : Word := op ++ (BitVec.ofFin x : Nibble) ++ kk

/-- Formats `XY` and `XYN`: `op`, two registers, a nibble. -/
def wordXYN (op : Nibble) (x y : Reg) (n3 : Nibble) : Word :=
  op ++ (BitVec.ofFin x : Nibble) ++ (BitVec.ofFin y : Nibble) ++ n3

/-- Format `X`: `op`, a register, the minor opcode `fn8`. -/
def wordX (op : Nibble) (x : Reg) (fn8 : Byte) : Word := op ++ (BitVec.ofFin x : Nibble) ++ fn8

/-- The word of an instruction (R66). -/
def encodeWord : Instr → Word
  | .sys addr => wordA 0x0 addr
  | .cls => 0x00E0#16
  | .ret => 0x00EE#16
  | .jp addr => wordA 0x1 addr
  | .call addr => wordA 0x2 addr
  | .seImm x kk => wordXK 0x3 x kk
  | .sneImm x kk => wordXK 0x4 x kk
  | .seReg x y => wordXYN 0x5 x y 0x0
  | .ldImm x kk => wordXK 0x6 x kk
  | .addImm x kk => wordXK 0x7 x kk
  | .ldReg x y => wordXYN 0x8 x y 0x0
  | .or x y => wordXYN 0x8 x y 0x1
  | .and x y => wordXYN 0x8 x y 0x2
  | .xor x y => wordXYN 0x8 x y 0x3
  | .addReg x y => wordXYN 0x8 x y 0x4
  | .sub x y => wordXYN 0x8 x y 0x5
  | .shr x y => wordXYN 0x8 x y 0x6
  | .subn x y => wordXYN 0x8 x y 0x7
  | .shl x y => wordXYN 0x8 x y 0xE
  | .sneReg x y => wordXYN 0x9 x y 0x0
  | .ldI addr => wordA 0xA addr
  | .jpV0 addr => wordA 0xB addr
  | .rnd x kk => wordXK 0xC x kk
  | .drw x y n => wordXYN 0xD x y (BitVec.ofFin n)
  | .skp x => wordX 0xE x 0x9E
  | .sknp x => wordX 0xE x 0xA1
  | .ldFromDT x => wordX 0xF x 0x07
  | .ldKey x => wordX 0xF x 0x0A
  | .ldDT x => wordX 0xF x 0x15
  | .ldST x => wordX 0xF x 0x18
  | .addI x => wordX 0xF x 0x1E
  | .ldF x => wordX 0xF x 0x29
  | .ldB x => wordX 0xF x 0x33
  | .storeRegs x => wordX 0xF x 0x55
  | .loadRegs x => wordX 0xF x 0x65

/-- The bytes of an instruction in memory order (R43). -/
def encode (i : Instr) : List Byte := [highByte (encodeWord i), lowByte (encodeWord i)]

/-! ## Words numbered as spec/opcode_table.json numbers them -/

/-- The opcode whose low `nbits` bits are those of `w`, its bits above `nbits` zero. An opcode is one 16-bit word
(R60), so bits 15..0 of the table's number are the opcode itself. -/
def tableWord (nbits w : Nat) : Word := BitVec.ofNat 16 (w % 2 ^ nbits)

/-- What the decoder reads from a table word laid out in memory as the hardware stores it (R43). -/
def decodeTableWord (nbits w : Nat) : Option Instr :=
  match decode [highByte (tableWord nbits w), lowByte (tableWord nbits w)] with
  | .ok (i, _) => some i
  | .error _ => none

end Sys2Proof
end

