-- ==== Sys2Proof/Config.lean ====
section
/-! DEFINITION. What is fixed for the machine (the sizes of R5, 00_scope.md) and the free values, constants with no
body that nothing can evaluate (R131 and D18; R191 and U1). The font table, which the spec also calls a configuration
value (R24), is `Sys2Proof.Machine.fontTable` in Machine/Ops.lean. -/

namespace Sys2Proof.Config

/-- `MEM_SIZE` (R5): byte addresses 0x000 to 0xFFF. -/
def memSize : Nat := 4096

/-- `PROG_BASE` (R5), where `load_program` writes. -/
def progBase : Nat := 0x200

/-- `PROG_MAX` (R5), the longest program `load_program` accepts. -/
def progMax : Nat := 3584

/-- `GLYPH_SIZE` (R5): bytes of one font glyph. -/
def glyphSize : Nat := 5

/-- `STACK_DEPTH` (R5). -/
def stackDepth : Nat := 16

/-- `DISP_W` (R5). -/
def dispWidth : Nat := 64

/-- `DISP_H` (R5). -/
def dispHeight : Nat := 32

/-- `NKEYS` (R5). -/
def nKeys : Nat := 16

/-- FREE VALUE (log 3). The byte that the `n`-th execution of `RND` draws: "any of the 256 values may occur, successive
draws are unrelated" (R131, D18, U2). -/
opaque rand : Nat → Byte

/-- FREE VALUE (log 4). What a fatal fault leaves of a state: "all state other than `FAULT` is unspecified" (R191, U1). -/
opaque afterFault {σ : Type} [Inhabited σ] : σ → σ

end Sys2Proof.Config
end

