-- ==== Sys2Proof/Machine/State.lean ====
section
/-! DEFINITION. The state of the machine (10_state.md), as plain data, its reset (R25), and the reasons a step can
stop (R190). -/

namespace Sys2Proof.Machine

/-- Main memory `MEM` (R17): the listed cells, in canonical form (`Memory.wf` in Machine/Ops.lean). An address not
listed reads as its reset contents (`Memory.initial`). -/
abbrev Memory := List Host.Cell

/-- The display `DISP` (R20), row by row: pixel `(x, y)` is element `x` of row `y`. -/
abbrev Display := Vector (Vector Bool 64) 32

/-- The causes of a fatal fault, the values of the latch `FAULT` (R22, R190). -/
inductive FaultCause where
  /-- A byte address above 0xFFF must be accessed (R192). -/
  | memoryOutOfBounds
  /-- `CALL` with all 16 entries live (R193). -/
  | callStackOverflow
  /-- `RETURN` with no entry live (R194). -/
  | callStackUnderflow
  /-- `SKP` or `SKNP` with `V[x]` above 15 (R195). -/
  | keyIndexOutOfRange
  deriving DecidableEq, Repr

/-- A step that stops: the fatal faults of R190 with the information their outcome carries, and the step of a core
that has faulted already (R88). Each is the spec's own outcome `fault(cause, info)` (R87), so each is safe: nothing can
be proved of a state after it (R191). -/
inductive Fault where
  /-- Raised by the fetch with base `PC`, and by `DRW`, `LD B, Vx`, `LD [I], Vx`, `LD Vx, [I]` with base `I` (R192).
  Safe. -/
  | memoryOutOfBounds (base : Word)
  /-- Raised by `CALL` at address `pc` (R193). Safe. -/
  | callStackOverflow (pc : Word)
  /-- Raised by `RETURN` at address `pc` (R194). Safe. -/
  | callStackUnderflow (pc : Word)
  /-- Raised by `SKP` and `SKNP` with the value `k` of `V[x]` (R195). Safe. -/
  | keyIndexOutOfRange (k : Byte)
  /-- Raised by `step` itself while `FAULT` holds `cause`: the core is stuck (R88). Safe. -/
  | stuck (cause : FaultCause)
  deriving DecidableEq, Repr

/-- A step with no meaning. -/
inductive Refusal where
  /-- An instruction the model gives no meaning, raised by its arm of `exec` only; no arm does. Safe. -/
  | notModelled (mnemonic : String)
  deriving DecidableEq, Repr

/-- The non-fatal report `UnrecognizedOpcode(pc, opcode)` (R196). -/
structure Diagnostic where
  pc : Word
  opcode : Word
  deriving DecidableEq, Repr

/-- All the state the spec gives the machine (10_state.md), and two fields of the model's own. -/
structure State where
  /-- `V[0]` to `V[15]` (R10). `V[15]` is VF (R11). -/
  v : Vector Byte 16
  /-- The index register `I` (R12). -/
  i : Word
  /-- The program counter `PC` (R13). -/
  pc : Word
  /-- `SP`, the number of live stack entries (R14). -/
  sp : Fin 17
  /-- `STACK[0]` to `STACK[15]` (R14). -/
  stack : Vector Word 16
  /-- The delay timer `DT` (R15). -/
  dt : Byte
  /-- The sound timer `ST` (R16). -/
  st : Byte
  /-- Main memory `MEM` (R17). -/
  mem : Memory
  /-- The display `DISP` (R20). -/
  disp : Display
  /-- The key flags `KEY[0]` to `KEY[15]` (R21). -/
  key : Vector Bool 16
  /-- The fault latch `FAULT` (R22). -/
  fault : Option FaultCause
  /-- The model's own (log 2): the diagnostic that the outcome of the step just taken carries (R87). -/
  diag : Option Diagnostic
  /-- The model's own (log 3): how many free values have been drawn. -/
  draws : Nat
  deriving DecidableEq, Repr

/-- The machine after `initialize()` (R25, R220): everything zero, `PC` at 0x200, memory at its reset contents. -/
def State.reset : State where
  v := Vector.replicate 16 0x00#8
  i := 0x0000#16
  pc := 0x0200#16
  sp := 0
  stack := Vector.replicate 16 0x0000#16
  dt := 0x00#8
  st := 0x00#8
  mem := []
  disp := Vector.replicate 32 (Vector.replicate 64 false)
  key := Vector.replicate 16 false
  fault := none
  diag := none
  draws := 0

end Sys2Proof.Machine
end

