-- ==== Sys2Proof/Machine/Ops.lean ====
section
/-! DEFINITION. The named operations over registers, stack, memory and program counter (R8), the start of a step (R81),
the fetch (R82), the diagnostic (R196), and raising a fatal fault (R191). -/

namespace Sys2Proof.Machine

/-! ## Registers (R8, R10, R11) -/

/-- `V[x]`. -/
def State.readReg (s : State) (x : Reg) : Byte := s.v.get x

/-- `V[x] <- b`. -/
def State.writeReg (s : State) (x : Reg) (b : Byte) : State := { s with v := s.v.set x.val b x.isLt }

/-- `V[k], V[k+1], ... <- bs`, in ascending order (R145); there is no register past `V[15]`. -/
def State.writeRegsFrom (s : State) (k : Nat) : List Byte → State
  | [] => s
  | b :: bs => if h : k < 16 then (s.writeReg ⟨k, h⟩ b).writeRegsFrom (k + 1) bs else s

/-- `I <- a`. -/
def State.setI (s : State) (a : Word) : State := { s with i := a }

/-- `DT <- b`. -/
def State.setDT (s : State) (b : Byte) : State := { s with dt := b }

/-- `ST <- b`. -/
def State.setST (s : State) (b : Byte) : State := { s with st := b }

/-- `MEM <- m`. -/
def State.setMem (s : State) (m : Memory) : State := { s with mem := m }

/-- `DISP <- d`. -/
def State.setDisp (s : State) (d : Display) : State := { s with disp := d }

/-- Emit `diag UnrecognizedOpcode(pc, opcode)` (R196). -/
def State.setDiag (s : State) (d : Diagnostic) : State := { s with diag := some d }

/-- One free value more has been drawn (log 3). -/
def State.countDraw (s : State) : State := { s with draws := s.draws + 1 }

/-! ## Program counter (R8, R86) -/

/-- `PC <- target`, with no bias (R86). -/
def State.setPC (s : State) (target : Word) : State := { s with pc := target }

/-- `next` (R8). -/
def State.advance (s : State) : State := s.setPC (s.pc + 2)

/-- `skip` (R8). -/
def State.skipNext (s : State) : State := s.setPC (s.pc + 4)

/-- `if c then skip else next` (R105 to R108, R160, R161). -/
def State.skipIf (c : Bool) (s : State) : State := if c then s.skipNext else s.advance

/-! ## Call stack (R14, R101, R103) -/

/-- `STACK[SP] <- ret; SP <- SP + 1`; nothing when all 16 entries are live. -/
def State.push (s : State) (ret : Word) : Option State :=
  if h : s.sp.val < 16 then
    some { s with stack := s.stack.set s.sp.val ret h, sp := ⟨s.sp.val + 1, by omega⟩ }
  else none

/-- `SP <- SP - 1`, with `STACK[SP]`; nothing when no entry is live. The popped slot keeps its content (R14). -/
def State.pop (s : State) : Option (Word × State) :=
  if h : 0 < s.sp.val then
    some (s.stack[s.sp.val - 1]'(by omega), { s with sp := ⟨s.sp.val - 1, by omega⟩ })
  else none

/-! ## Memory (R17, R40 to R47) -/

/-- The font table (R24), glyph `d` at bytes `5·d` to `5·d + 4`. The source prints glyph 0 only; the others are the
spec's, from general knowledge (D17, log 6). -/
def fontTable : List Byte :=
  [0xF0, 0x90, 0x90, 0x90, 0xF0,  0x20, 0x60, 0x20, 0x20, 0x70,  0xF0, 0x10, 0xF0, 0x80, 0xF0,
   0xF0, 0x10, 0xF0, 0x10, 0xF0,  0x90, 0x90, 0xF0, 0x10, 0x10,  0xF0, 0x80, 0xF0, 0x10, 0xF0] ++
  [0xF0, 0x80, 0xF0, 0x90, 0xF0,  0xF0, 0x10, 0x20, 0x40, 0x40,  0xF0, 0x90, 0xF0, 0x90, 0xF0,
   0xF0, 0x90, 0xF0, 0x10, 0xF0,  0xF0, 0x90, 0xF0, 0x90, 0x90,  0xE0, 0x90, 0xE0, 0x90, 0xE0] ++
  [0xF0, 0x80, 0x80, 0x80, 0xF0,  0xE0, 0x90, 0x90, 0x90, 0xE0,  0xF0, 0x80, 0xF0, 0x80, 0xF0,
   0xF0, 0x80, 0xF0, 0x80, 0x80]

/-- What an address that is not listed reads as: its contents after `initialize()` (R25). -/
def Memory.initial (a : Nat) : Byte := fontTable.getD a 0x00

/-- `MEM[a]`. -/
def Memory.readByte : Memory → Nat → Byte
  | [], a => Memory.initial a
  | (k, b) :: rest, a => if k = a then b else Memory.readByte rest a

/-- The cells but those of address `a`. -/
def Memory.erase : Memory → Nat → Memory
  | [], _ => []
  | (k, c) :: rest, a => if k = a then Memory.erase rest a else (k, c) :: Memory.erase rest a

/-- Put a cell before the first one of a higher address. -/
def Memory.insert : Memory → Nat → Byte → Memory
  | [], a, b => [(a, b)]
  | (k, c) :: rest, a, b => if a < k then (a, b) :: (k, c) :: rest else (k, c) :: Memory.insert rest a b

/-- `MEM[a] <- b`, keeping the canonical form: the value an unlisted address reads as is not listed. -/
def Memory.writeByte (m : Memory) (a : Nat) (b : Byte) : Memory :=
  if b = Memory.initial a then Memory.erase m a else Memory.insert (Memory.erase m a) a b

/-- The canonical form: addresses strictly rising and inside 0x000..0xFFF, and no cell that holds what its address
would read as unlisted. -/
def Memory.wf (m : Memory) : Bool :=
  decide (m.Pairwise fun c d => c.1 < d.1) && m.all fun c => c.1 < Config.memSize && c.2 != Memory.initial c.1

/-- Every byte address `base .. base+count-1` exists (R46): addresses are unbounded integers, never reduced, and an
access of no byte is always in bounds. -/
def accessInBounds (base count : Nat) : Bool := count = 0 || base + (count - 1) < Config.memSize

/-- The `count` bytes from `base` up (R44). -/
def Memory.readBytes (m : Memory) (base count : Nat) : List Byte :=
  (List.range count).map fun k => Memory.readByte m (base + k)

/-- Write bytes to ascending addresses from `base` (R44). -/
def Memory.writeBytes (m : Memory) (base : Nat) : List Byte → Memory
  | [] => m
  | b :: bs => Memory.writeBytes (Memory.writeByte m base b) (base + 1) bs

/-! ## Fatal faults (R191) and the diagnostic (R196) -/

/-- The cause a fault leaves in `FAULT` (R190, R191). -/
def Fault.cause : Fault → FaultCause
  | .memoryOutOfBounds _ => .memoryOutOfBounds
  | .callStackOverflow _ => .callStackOverflow
  | .callStackUnderflow _ => .callStackUnderflow
  | .keyIndexOutOfRange _ => .keyIndexOutOfRange
  | .stuck cause => cause

/-- `raise f` (R8, R191): the step stops with the outcome `fault(cause, info)`; control goes nowhere. -/
def raise (f : Fault) : Host.Outcome State Fault Refusal := .fault f

/-- The core after the fault `f` of a step from `s` (R191): `FAULT <- cause`, and all other state unspecified (log 4).
No diagnostic is reported in such a step (R90), and the model's count of free values goes on. -/
def faultedState (f : Fault) (s : State) : State :=
  { @Config.afterFault State ⟨State.reset⟩ s with fault := some f.cause, diag := none, draws := s.draws + 1 }

/-- Run `k` if all `count` bytes from `base` exist, else raise `MemoryOutOfBounds(base)` before any effect
(R46, R146). -/
def checkAccess (base : Word) (count : Nat) (k : Host.Outcome State Fault Refusal) : Host.Outcome State Fault Refusal :=
  if accessInBounds base.toNat count then k else raise (.memoryOutOfBounds base)

/-- An unrecognized opcode `w` (R85): the diagnostic and `next`, nothing else. -/
def reportUnrecognized (w : Word) (s : State) : State := (s.setDiag ⟨s.pc, w⟩).advance

/-! ## The start of a step (R80 to R82) -/

/-- One tick of a timer: down by one while nonzero, never below zero (R15, R81). -/
def tickTimer (t : Byte) : Byte := if t = 0 then 0 else t - 1

/-- The tick (R81), before which the diagnostic of the step before is cleared (log 2). -/
def State.beginStep (s : State) : State := { s with dt := tickTimer s.dt, st := tickTimer s.st, diag := none }

/-- `w <- MemRead(PC, 2)` (R82, R43), nothing when a byte of it does not exist. -/
def State.fetch (s : State) : Option Word :=
  if accessInBounds s.pc.toNat 2 then
    some (wordOfBytes (Memory.readByte s.mem s.pc.toNat) (Memory.readByte s.mem (s.pc.toNat + 1)))
  else none

/-- The opcode `w` stored where the next step fetches, high byte first (R43); where no opcode can stand, `s`. -/
def State.placeWord (s : State) (w : Word) : State :=
  if accessInBounds s.pc.toNat 2 then s.setMem (Memory.writeBytes s.mem s.pc.toNat [highByte w, lowByte w]) else s

end Sys2Proof.Machine
end

