-- ==== Sys2Proof/Machine/Flags.lean ====
section
/-! DEFINITION. The flag computations: what the five arithmetic flag writers (R126 to R130, R132) and `DRW` (R151) put
into VF, always 0 or 1 (R11). -/

namespace Sys2Proof.Machine

/-- A flag as the byte VF receives. -/
def flagByte (f : Bool) : Byte := if f then 1 else 0

/-- `VF <- f` (R11). -/
def State.writeVF (s : State) (f : Bool) : State := s.writeReg vfIndex (flagByte f)

/-- Carry of `a + b`: the exact sum exceeds 255 (R132). -/
def carryFlag (a b : Byte) : Bool := decide (a.toNat + b.toNat > 255)

/-- No borrow of `a - b`: `a ≥ b` (R132). -/
def noBorrowFlag (a b : Byte) : Bool := decide (a.toNat ≥ b.toNat)

/-- The bit `SHR` shifts out, bit 0 (R128). -/
def shiftedOutRight (a : Byte) : Bool := a.getLsbD 0

/-- The bit `SHL` shifts out, bit 7 (R130). -/
def shiftedOutLeft (a : Byte) : Bool := a.getLsbD 7

/-- Toggling a pixel that was `old` erases it: it goes from set to unset (R151). -/
def erasesPixel (old : Bool) : Bool := old

end Sys2Proof.Machine
end

