-- ==== Sys2Proof/Machine/Operands.lean ====
section
/-! DEFINITION. The operand forms: zero-extended immediates (R64), effective addresses (R146), glyph addresses (R142),
BCD digits (R143), register blocks (R144), sprite bits and wrapped coordinates (R151, R152), key indices (R160). -/

namespace Sys2Proof.Machine

/-- `zext_16(addr)` (R64). -/
def addrOperand (addr : Addr) : Word := addr.setWidth 16

/-- `zext_16(b)` of a register or immediate byte (R64). -/
def byteOperand (b : Byte) : Word := b.setWidth 16

/-- `EA(k) = zext(I) + k`, an unbounded integer (R146). -/
def effectiveAddress (s : State) (k : Nat) : Nat := s.i.toNat + k

/-- `5 * zext_16(d)`, the address of glyph `d`, for every byte `d` (R142, D9). -/
def glyphAddress (d : Byte) : Word := BitVec.ofNat 16 (Config.glyphSize * d.toNat)

/-- Hundreds, tens, units (R143), one digit a byte. -/
def bcdDigits (b : Byte) : List Byte :=
  [BitVec.ofNat 8 (b.toNat / 100), BitVec.ofNat 8 (b.toNat / 10 % 10), BitVec.ofNat 8 (b.toNat % 10)]

/-- `V[0] .. V[x]` (R144). -/
def registerBlock (s : State) (x : Reg) : List Byte := s.v.toList.take (x.val + 1)

/-- A register's value as a key index; none above 15 (R160, D10). -/
def keyIndex (b : Byte) : Option (Fin 16) := if h : b.toNat < 16 then some ⟨b.toNat, h⟩ else none

/-- The lowest-indexed pressed key (R163). -/
def lowestPressed (keys : Vector Bool 16) : Option (Fin 16) := (List.finRange 16).find? fun k => keys.get k

/-- Column `c` of a sprite row: bit `7 - c`, the most significant bit leftmost (R152). -/
def spriteBit (b : Byte) (c : Nat) : Bool := b.getLsbD (7 - c)

/-- `(px + c) mod 64` (R151). -/
def wrapColumn (px : Byte) (c : Nat) : Fin 64 := ⟨(px.toNat + c) % 64, Nat.mod_lt _ (by decide)⟩

/-- `(py + r) mod 32` (R151). -/
def wrapRow (py : Byte) (r : Nat) : Fin 32 := ⟨(py.toNat + r) % 32, Nat.mod_lt _ (by decide)⟩

end Sys2Proof.Machine
end

