-- ==== Sys2Proof/Machine/Arith.lean ====
section
/-! DEFINITION. Register load, arithmetic, logic, random (42_load_arith_logic.md). Byte arithmetic wraps modulo 256
(R132). The five flag writers capture their operands, write the result, then VF (R11, R132, C2). -/

namespace Sys2Proof.Machine

/-- `V[x] <- b; next`: the forms that write no flag (R120 to R125, R131). -/
def loadResult (x : Reg) (b : Byte) (s : State) : Host.Outcome State Fault Refusal := .next (s.writeReg x b).advance

/-- `V[x] <- b; VF <- f; next`, in that order (R126 to R130, C2). -/
def loadResultAndFlag (x : Reg) (b : Byte) (f : Bool) (s : State) : Host.Outcome State Fault Refusal :=
  .next ((s.writeReg x b).writeVF f).advance

/-- R120. -/
def execLdImm (x : Reg) (kk : Byte) (s : State) : Host.Outcome State Fault Refusal := loadResult x kk s

/-- R121: VF is not written (D5). -/
def execAddImm (x : Reg) (kk : Byte) (s : State) : Host.Outcome State Fault Refusal :=
  loadResult x (s.readReg x + kk) s

/-- R122. -/
def execLdReg (x y : Reg) (s : State) : Host.Outcome State Fault Refusal := loadResult x (s.readReg y) s

/-- R123: VF is not written (D5). -/
def execOr (x y : Reg) (s : State) : Host.Outcome State Fault Refusal :=
  loadResult x (s.readReg x ||| s.readReg y) s

/-- R124: VF is not written (D5). -/
def execAnd (x y : Reg) (s : State) : Host.Outcome State Fault Refusal :=
  loadResult x (s.readReg x &&& s.readReg y) s

/-- R125: VF is not written (D5). -/
def execXor (x y : Reg) (s : State) : Host.Outcome State Fault Refusal :=
  loadResult x (s.readReg x ^^^ s.readReg y) s

/-- R126. -/
def execAddReg (x y : Reg) (s : State) : Host.Outcome State Fault Refusal :=
  loadResultAndFlag x (s.readReg x + s.readReg y) (carryFlag (s.readReg x) (s.readReg y)) s

/-- R127. -/
def execSub (x y : Reg) (s : State) : Host.Outcome State Fault Refusal :=
  loadResultAndFlag x (s.readReg x - s.readReg y) (noBorrowFlag (s.readReg x) (s.readReg y)) s

/-- R128: `V[x]` is shifted in place and `y` is not used (D4). -/
def execShr (x _y : Reg) (s : State) : Host.Outcome State Fault Refusal :=
  loadResultAndFlag x (s.readReg x >>> 1) (shiftedOutRight (s.readReg x)) s

/-- R129: `V[y] - V[x]` (D22). -/
def execSubn (x y : Reg) (s : State) : Host.Outcome State Fault Refusal :=
  loadResultAndFlag x (s.readReg y - s.readReg x) (noBorrowFlag (s.readReg y) (s.readReg x)) s

/-- R130: `V[x]` is shifted in place and `y` is not used (D4). -/
def execShl (x _y : Reg) (s : State) : Host.Outcome State Fault Refusal :=
  loadResultAndFlag x (s.readReg x <<< 1) (shiftedOutLeft (s.readReg x)) s

/-- R131 for a given draw `rand`. -/
def randomAnd (rand : Byte) (x : Reg) (kk : Byte) (s : State) : Host.Outcome State Fault Refusal :=
  loadResult x (rand &&& kk) s

/-- R131: the draw is a free value (D18, log 3), and one more has been drawn. -/
def execRnd (x : Reg) (kk : Byte) (s : State) : Host.Outcome State Fault Refusal :=
  randomAnd (Config.rand s.draws) x kk s.countDraw

end Sys2Proof.Machine
end

