-- ==== Sys2Proof/Machine/Control.lean ====
section
/-! DEFINITION. Control transfer (41_control_transfer.md): SYS, RETURN, JP, CALL, JP V0, SE, SNE. -/

namespace Sys2Proof.Machine

/-- R100: an unrecognized word, `0nnn`. -/
def execSys (addr : Addr) (s : State) : Host.Outcome State Fault Refusal :=
  .next (reportUnrecognized (addrOperand addr) s)

/-- R101. -/
def execReturn (s : State) : Host.Outcome State Fault Refusal :=
  match s.pop with
  | none => raise (.callStackUnderflow s.pc)
  | some (target, s') => .next (s'.setPC target)

/-- R102. -/
def execJp (addr : Addr) (s : State) : Host.Outcome State Fault Refusal := .next (s.setPC (addrOperand addr))

/-- R103: the pushed value is the address of the next instruction. -/
def execCall (addr : Addr) (s : State) : Host.Outcome State Fault Refusal :=
  match s.push (s.pc + 2) with
  | none => raise (.callStackOverflow s.pc)
  | some s' => .next (s'.setPC (addrOperand addr))

/-- R104: the offset register is V0 (D6); the sum is not reduced. -/
def execJpV0 (addr : Addr) (s : State) : Host.Outcome State Fault Refusal :=
  .next (s.setPC (addrOperand addr + byteOperand (s.readReg 0)))

/-- R105. -/
def execSeImm (x : Reg) (kk : Byte) (s : State) : Host.Outcome State Fault Refusal :=
  .next (s.skipIf (s.readReg x == kk))

/-- R106. -/
def execSneImm (x : Reg) (kk : Byte) (s : State) : Host.Outcome State Fault Refusal :=
  .next (s.skipIf (s.readReg x != kk))

/-- R107. -/
def execSeReg (x y : Reg) (s : State) : Host.Outcome State Fault Refusal :=
  .next (s.skipIf (s.readReg x == s.readReg y))

/-- R108. -/
def execSneReg (x y : Reg) (s : State) : Host.Outcome State Fault Refusal :=
  .next (s.skipIf (s.readReg x != s.readReg y))

end Sys2Proof.Machine
end

