-- ==== Sys2Proof/Machine/Display.lean ====
section
/-! DEFINITION. The display (44_display.md): pixels, the XOR-collision engine, CLS and DRW. -/

namespace Sys2Proof.Machine

/-- `DISP[x, y]` (R20). -/
def Display.pixel (d : Display) (x : Fin 64) (y : Fin 32) : Bool := (d.get y).get x

/-- `DISP[x, y] <- DISP[x, y] ^ 1` (R151). -/
def Display.toggle (d : Display) (x : Fin 64) (y : Fin 32) : Display :=
  d.set y.val ((d.get y).set x.val (!(Display.pixel d x y)) x.isLt) y.isLt

/-- Every pixel 0 (R150). -/
def Display.blank : Display := Vector.replicate 32 (Vector.replicate 64 false)

/-- One sprite bit at one place of the display, with the collision found so far (R151). -/
def drawBit (x : Fin 64) (y : Fin 32) (bit : Bool) (p : Display × Bool) : Display × Bool :=
  if bit then (Display.toggle p.1 x y, p.2 || erasesPixel (Display.pixel p.1 x y)) else p

/-- Sprite row `r`, the byte `b`: columns 0 to 7 (R151). -/
def drawRow (px py : Byte) (r : Nat) (b : Byte) (p : Display × Bool) : Display × Bool :=
  (List.range 8).foldl (fun p c => drawBit (wrapColumn px c) (wrapRow py r) (spriteBit b c) p) p

/-- Sprite rows `r`, `r + 1`, ... (R151). -/
def drawRows (px py : Byte) (r : Nat) : List Byte → Display × Bool → Display × Bool
  | [], p => p
  | b :: bs, p => drawRows px py (r + 1) bs (drawRow px py r b p)

/-- The sprite's `n` bytes at `I` (R152). -/
def spriteBytes (s : State) (n : Nat) : List Byte := Memory.readBytes s.mem (effectiveAddress s 0) n

/-- R150: VF is not written. -/
def execCls (s : State) : Host.Outcome State Fault Refusal := .next (s.setDisp Display.blank).advance

/-- R151: coordinates are captured first, VF is written last. -/
def execDrw (x y : Reg) (n : Fin 16) (s : State) : Host.Outcome State Fault Refusal :=
  let drawn := drawRows (s.readReg x) (s.readReg y) 0 (spriteBytes s n.val) (s.disp, false)
  checkAccess s.i n.val (.next ((s.setDisp drawn.1).writeVF drawn.2).advance)

end Sys2Proof.Machine
end

