-- ==== Sys2Proof/Machine/Index.lean ====
section
/-! DEFINITION. Index register and memory (43_index_memory.md). No instruction here changes `I` by using it (D7). -/

namespace Sys2Proof.Machine

/-- R140. -/
def execLdI (addr : Addr) (s : State) : Host.Outcome State Fault Refusal := .next (s.setI (addrOperand addr)).advance

/-- R141: 16-bit wrap, no flag (D8). -/
def execAddI (x : Reg) (s : State) : Host.Outcome State Fault Refusal :=
  .next (s.setI (s.i + byteOperand (s.readReg x))).advance

/-- R142. -/
def execLdF (x : Reg) (s : State) : Host.Outcome State Fault Refusal :=
  .next (s.setI (glyphAddress (s.readReg x))).advance

/-- Store bytes from `EA(0)` up and go on, all addresses checked before any write (R146). -/
def storeAtI (bytes : List Byte) (s : State) : Host.Outcome State Fault Refusal :=
  checkAccess s.i bytes.length (.next (s.setMem (Memory.writeBytes s.mem (effectiveAddress s 0) bytes)).advance)

/-- R143. -/
def execLdB (x : Reg) (s : State) : Host.Outcome State Fault Refusal := storeAtI (bcdDigits (s.readReg x)) s

/-- R144. -/
def execStoreRegs (x : Reg) (s : State) : Host.Outcome State Fault Refusal := storeAtI (registerBlock s x) s

/-- R145. -/
def execLoadRegs (x : Reg) (s : State) : Host.Outcome State Fault Refusal :=
  checkAccess s.i (x.val + 1)
    (.next (s.writeRegsFrom 0 (Memory.readBytes s.mem (effectiveAddress s 0) (x.val + 1))).advance)

end Sys2Proof.Machine
end

