-- ==== Sys2Proof/Machine/TimersKeys.lean ====
section
/-! DEFINITION. Timers and keypad (45_timers_keypad.md). The tick of the step has already happened. -/

namespace Sys2Proof.Machine

/-- Skip when the flag of the key named by `V[x]` is `pressed`; an index above 15 faults (R160, R161, D10). -/
def skipOnKey (x : Reg) (pressed : Bool) (s : State) : Host.Outcome State Fault Refusal :=
  match keyIndex (s.readReg x) with
  | none => raise (.keyIndexOutOfRange (s.readReg x))
  | some k => .next (s.skipIf (s.key.get k == pressed))

/-- R160. -/
def execSkp (x : Reg) (s : State) : Host.Outcome State Fault Refusal := skipOnKey x true s

/-- R161. -/
def execSknp (x : Reg) (s : State) : Host.Outcome State Fault Refusal := skipOnKey x false s

/-- R162. -/
def execLdFromDT (x : Reg) (s : State) : Host.Outcome State Fault Refusal := .next (s.writeReg x s.dt).advance

/-- R163: with no key pressed `PC` stays, and nothing records the wait (R23). -/
def execLdKey (x : Reg) (s : State) : Host.Outcome State Fault Refusal :=
  match lowestPressed s.key with
  | none => .next s
  | some k => .next (s.writeReg x (BitVec.ofNat 8 k.val)).advance

/-- R164. -/
def execLdDT (x : Reg) (s : State) : Host.Outcome State Fault Refusal := .next (s.setDT (s.readReg x)).advance

/-- R165. -/
def execLdST (x : Reg) (s : State) : Host.Outcome State Fault Refusal := .next (s.setST (s.readReg x)).advance

end Sys2Proof.Machine
end

