-- ==== Sys2Proof/Machine/Step.lean ====
section
/-! DEFINITION. One step of the core (R80): the latch (R88), the tick (R81), the fetch (R82), the decode (R83), the
execution (R84) or the unrecognized opcode (R85). -/

namespace Sys2Proof.Machine

/-- `step()` (R80), the checks in the order of R90. -/
def step (s : State) : Host.Outcome State Fault Refusal :=
  match s.fault with
  | some cause => raise (.stuck cause)
  | none =>
    match s.beginStep.fetch with
    | none => raise (.memoryOutOfBounds s.pc)
    | some w =>
      match decodeWord w with
      | .ok i => exec i s.beginStep
      | .error _ => .next (reportUnrecognized w s.beginStep)

/-- `s` with the instruction whose table word is `w` stored where `step` fetches next (log 5). -/
def State.withFetchWord (s : State) (nbits w : Nat) : State := s.placeWord (tableWord nbits w)

end Sys2Proof.Machine
end

