-- ==== Sys2Proof/Machine/HostOps.lean ====
section
/-! DEFINITION. The host interface (50_host_interface.md): the six operations, each one atomic transaction between
steps (R170, R171), and the moves of the host as one type. -/

namespace Sys2Proof.Machine

/-- The errors of the host interface (R190); neither sets `FAULT` nor changes the core (R175, R177). -/
inductive InterfaceError where
  /-- `load_program` with more than 3584 bytes (R175). -/
  | programTooLarge
  /-- `set_key` with an index above 15 (R177). -/
  | invalidKeyIndex
  deriving DecidableEq, Repr

/-- The outcome of a step as the host sees it (R87). -/
inductive StepOutcome where
  /-- A recognized instruction ran. -/
  | ok
  /-- An unrecognized opcode was passed over (R85). -/
  | okWithDiagnostic (d : Diagnostic)
  /-- A fatal fault was raised, or the core was stuck (R191, R88). -/
  | fault (f : Fault)
  /-- A step that this model gives no meaning; there is none. -/
  | noMeaning (r : Refusal)
  deriving DecidableEq, Repr

/-- The operation `initialize()` (R172, R220): the reset state from any state, a faulted one too. The model's count of
free values goes on, so that draws after it are unrelated to draws before it (log 3). -/
def hostInitialize (s : State) : State := { State.reset with draws := s.draws }

/-- `load_program(bytes)` (R174, R175). -/
def loadProgram (bytes : List Byte) (s : State) : Except InterfaceError State :=
  if bytes.length ≤ Config.progMax then .ok (s.setMem (Memory.writeBytes s.mem Config.progBase bytes))
  else .error .programTooLarge

/-- `set_key(index, pressed)` (R176, R177). -/
def setKey (index : Nat) (pressed : Bool) (s : State) : Except InterfaceError State :=
  if h : index < 16 then .ok { s with key := s.key.set index pressed h } else .error .invalidKeyIndex

/-- `display_snapshot()` (R179): row-major, element `64·y + x` is `DISP[x, y]`. -/
def displaySnapshot (s : State) : List Bool := (s.disp.toList.map Vector.toList).flatten

/-- `sound_timer_value()` (R180). -/
def soundTimerValue (s : State) : Byte := s.st

/-- The outcome of the step that answered `o` (R87). -/
def stepOutcome (o : Host.Outcome State Fault Refusal) : StepOutcome :=
  match o with
  | .next t =>
    match t.diag with
    | none => .ok
    | some d => .okWithDiagnostic d
  | .fault f => .fault f
  | .refused r => .noMeaning r

/-- The state the host finds after invoking `step()` (R178): the next state; after a fatal fault the latch set and the
rest unspecified (R191); unchanged when the core was stuck already (R88). -/
def stateAfterStep (s : State) : State :=
  match step s with
  | .next t => t
  | .fault (.stuck _) => s
  | .fault f => faultedState f s
  | .refused _ => s

/-- `step()` as the host's operation (R178). -/
def hostStep (s : State) : State × StepOutcome := (stateAfterStep s, stepOutcome (step s))

/-- The host's moves that can change the core (R171). -/
inductive HostMove where
  | init
  | load (bytes : List Byte)
  | key (index : Nat) (pressed : Bool)
  | stepOnce
  deriving DecidableEq, Repr

/-- The state after a host operation that may fail: an interface error leaves the core unchanged (R175, R177). -/
def unchangedOnError (s : State) : Except InterfaceError State → State
  | .ok t => t
  | .error _ => s

/-- The core after a move of the host. -/
def HostMove.apply : HostMove → State → State
  | .init, s => hostInitialize s
  | .load bytes, s => unchangedOnError s (loadProgram bytes s)
  | .key index pressed, s => unchangedOnError s (setKey index pressed s)
  | .stepOnce, s => stateAfterStep s

end Sys2Proof.Machine
end

