-- ==== Sys2Proof/Safety.lean ====
section
/-! DEFINITION. What claims about the machine are said with: the frame of an instruction, the fault an instruction must
raise, the program counter it must leave, the invariant of every run, and the end of a run. Written from the rules, not
from the meanings. -/

namespace Sys2Proof.Safety

open Sys2Proof.Machine

/-! ## Frames (R8, D1) -/

/-- The parts of the state beside the general registers and `PC`. -/
inductive Part where
  | index
  | stack
  | delay
  | sound
  | memory
  | display
  | keys
  | latch
  | report
  | drawCount
  deriving DecidableEq, Repr

/-- A part reads in `t` as in `s`; memory through every address. -/
def partUnchanged : Part → State → State → Prop
  | .index, s, t => t.i = s.i
  | .stack, s, t => t.sp = s.sp ∧ t.stack = s.stack
  | .delay, s, t => t.dt = s.dt
  | .sound, s, t => t.st = s.st
  | .memory, s, t => ∀ a, Memory.readByte t.mem a = Memory.readByte s.mem a
  | .display, s, t => t.disp = s.disp
  | .keys, s, t => t.key = s.key
  | .latch, s, t => t.fault = s.fault
  | .report, s, t => t.diag = s.diag
  | .drawCount, s, t => t.draws = s.draws

/-- Every register but those of `regs` and every part but those of `parts` is unchanged; `PC` is not spoken of. -/
def UnchangedBut (regs : List Reg) (parts : List Part) (s t : State) : Prop :=
  (∀ x, x ∉ regs → t.readReg x = s.readReg x) ∧ ∀ p, p ∉ parts → partUnchanged p s t

/-- `exec i s` answers a next state, and that state satisfies `P`. -/
def Answers (i : Instr) (s : State) (P : State → Prop) : Prop := ∃ t, exec i s = .next t ∧ P t

/-! ## Which fault (R90, R192 to R195) -/

/-- The fatal fault the rules give `i` in `s`, none when it completes. -/
def faultCondition : Instr → State → Option Fault
  | .sys _, _ => none
  | .cls, _ => none
  | .ret, s => if s.sp.val = 0 then some (.callStackUnderflow s.pc) else none
  | .jp _, _ => none
  | .call _, s => if s.sp.val = 16 then some (.callStackOverflow s.pc) else none
  | .seImm _ _, _ => none
  | .sneImm _ _, _ => none
  | .seReg _ _, _ => none
  | .ldImm _ _, _ => none
  | .addImm _ _, _ => none
  | .ldReg _ _, _ => none
  | .or _ _, _ => none
  | .and _ _, _ => none
  | .xor _ _, _ => none
  | .addReg _ _, _ => none
  | .sub _ _, _ => none
  | .shr _ _, _ => none
  | .subn _ _, _ => none
  | .shl _ _, _ => none
  | .sneReg _ _, _ => none
  | .ldI _, _ => none
  | .jpV0 _, _ => none
  | .rnd _ _, _ => none
  | .drw _ _ n, s => if n.val > 0 ∧ s.i.toNat + (n.val - 1) > 0xFFF then some (.memoryOutOfBounds s.i) else none
  | .skp x, s => if (s.readReg x).toNat > 15 then some (.keyIndexOutOfRange (s.readReg x)) else none
  | .sknp x, s => if (s.readReg x).toNat > 15 then some (.keyIndexOutOfRange (s.readReg x)) else none
  | .ldFromDT _, _ => none
  | .ldKey _, _ => none
  | .ldDT _, _ => none
  | .ldST _, _ => none
  | .addI _, _ => none
  | .ldF _, _ => none
  | .ldB _, s => if s.i.toNat + 2 > 0xFFF then some (.memoryOutOfBounds s.i) else none
  | .storeRegs x, s => if s.i.toNat + x.val > 0xFFF then some (.memoryOutOfBounds s.i) else none
  | .loadRegs x, s => if s.i.toNat + x.val > 0xFFF then some (.memoryOutOfBounds s.i) else none

/-! ## The program counter after an instruction (R86) -/

/-- `PC + 4` when the condition holds, else `PC + 2`. -/
def skipPC (c : Prop) [Decidable c] (s : State) : Word := if c then s.pc + 4 else s.pc + 2

/-- `KEY[b] = 1`, for a byte `b`; no key has an index above 15. -/
def keyDown (s : State) (b : Byte) : Prop := ∃ k : Fin 16, k.val = b.toNat ∧ s.key.get k = true

/-- The value of `PC` that the table of R86 gives an instruction that completes; `p` is such a value. -/
def PCAfter : Instr → State → Word → Prop
  | .sys _, s, p => p = s.pc + 2
  | .cls, s, p => p = s.pc + 2
  | .ret, s, p => s.stack[s.sp.val - 1]? = some p
  | .jp addr, _, p => p.toNat = addr.toNat
  | .call addr, _, p => p.toNat = addr.toNat
  | .seImm x kk, s, p => p = skipPC (s.readReg x = kk) s
  | .sneImm x kk, s, p => p = skipPC (s.readReg x ≠ kk) s
  | .seReg x y, s, p => p = skipPC (s.readReg x = s.readReg y) s
  | .ldImm _ _, s, p => p = s.pc + 2
  | .addImm _ _, s, p => p = s.pc + 2
  | .ldReg _ _, s, p => p = s.pc + 2
  | .or _ _, s, p => p = s.pc + 2
  | .and _ _, s, p => p = s.pc + 2
  | .xor _ _, s, p => p = s.pc + 2
  | .addReg _ _, s, p => p = s.pc + 2
  | .sub _ _, s, p => p = s.pc + 2
  | .shr _ _, s, p => p = s.pc + 2
  | .subn _ _, s, p => p = s.pc + 2
  | .shl _ _, s, p => p = s.pc + 2
  | .sneReg x y, s, p => p = skipPC (s.readReg x ≠ s.readReg y) s
  | .ldI _, s, p => p = s.pc + 2
  | .jpV0 addr, s, p => p.toNat = addr.toNat + (s.readReg 0).toNat
  | .rnd _ _, s, p => p = s.pc + 2
  | .drw _ _ _, s, p => p = s.pc + 2
  | .skp x, s, p => (keyDown s (s.readReg x) → p = s.pc + 4) ∧ (¬ keyDown s (s.readReg x) → p = s.pc + 2)
  | .sknp x, s, p => (keyDown s (s.readReg x) → p = s.pc + 2) ∧ (¬ keyDown s (s.readReg x) → p = s.pc + 4)
  | .ldFromDT _, s, p => p = s.pc + 2
  | .ldKey _, s, p => ((∃ k, s.key.get k = true) → p = s.pc + 2) ∧ ((∀ k, s.key.get k = false) → p = s.pc)
  | .ldDT _, s, p => p = s.pc + 2
  | .ldST _, s, p => p = s.pc + 2
  | .addI _, s, p => p = s.pc + 2
  | .ldF _, s, p => p = s.pc + 2
  | .ldB _, s, p => p = s.pc + 2
  | .storeRegs _, s, p => p = s.pc + 2
  | .loadRegs _, s, p => p = s.pc + 2

/-! ## What the next step runs -/

/-- The core has not faulted, and the two bytes at `PC` exist and spell `w` (R82, R43). -/
def Fetches (s : State) (w : Word) : Prop :=
  s.fault = none ∧ s.pc.toNat ≤ 0xFFE ∧
    w = Memory.readByte s.mem s.pc.toNat ++ Memory.readByte s.mem (s.pc.toNat + 1)

/-- The next step runs the instruction `i`. -/
def Runs (s : State) (i : Instr) : Prop := ∃ w, Fetches s w ∧ decodeWord w = .ok i

/-- The state an instruction runs in: both timers ticked (R81), no diagnostic reported yet (log 2). -/
def ticked (s : State) : State :=
  { s with
    dt := if s.dt = 0 then 0 else s.dt - 1
    st := if s.st = 0 then 0 else s.st - 1
    diag := none }

/-! ## Invariants (R13, R14, R26) -/

/-- Memory is in canonical form; `PC` is at most 0x10FE, the highest target of `JP V0` (R86, R104); every live stack
entry is the address after a `CALL` that was fetched, at most 0x1000 (R101). -/
def Inv (s : State) : Prop :=
  Memory.wf s.mem = true ∧ s.pc.toNat ≤ 0x10FE ∧
    ∀ k (h : k < 16), k < s.sp.val → (s.stack[k]'h).toNat ≤ 0x1000

/-- The invariant as the host finds the core, where a faulted state is unspecified (R191). -/
def InvUnlessFaulted (s : State) : Prop := s.fault = none → Inv s

/-- `PC` and every live stack entry are even. -/
def EvenPC (s : State) : Prop :=
  s.pc.toNat % 2 = 0 ∧ ∀ k (h : k < 16), k < s.sp.val → (s.stack[k]'h).toNat % 2 = 0

/-- The control-transfer target that `i` uses in `s`, if it uses one of its own, is even (R13). -/
def EvenTarget : Instr → State → Prop
  | .jp addr, _ => addr.toNat % 2 = 0
  | .call addr, _ => addr.toNat % 2 = 0
  | .jpV0 addr, s => (addr.toNat + (s.readReg 0).toNat) % 2 = 0
  | _, _ => True

/-! ## Safe runs and their end -/

/-- A step that a program proved correct takes: a next state, no diagnostic (R196). -/
def CleanStep (s t : State) : Prop := step s = .next t ∧ t.diag = none

/-- A run has ended (R223, D24): `PC` holds the address of a `JP` to that same address, and the core has not faulted. -/
def RunEnded (s : State) : Prop := ∃ addr : Addr, Runs s (.jp addr) ∧ addr.toNat = s.pc.toNat

/-! ## The sprite on the display (R151, R152) -/

/-- The sprite of `n` rows at `I`, drawn at `(px, py)`, has a bit 1 on the pixel `(X, Y)`: `X` is `c` columns right of
`px` modulo 64 and `Y` is `r` rows below `py` modulo 32, with `c < 8` and `r < n`, and bit `7 - c` of row `r` is 1. -/
def SpriteCovers (s : State) (px py : Byte) (n : Nat) (X : Fin 64) (Y : Fin 32) : Prop :=
  ∃ c r : Nat, c < 8 ∧ r < n ∧ (px.toNat + c) % 64 = X.val ∧ (py.toNat + r) % 32 = Y.val ∧
    (Memory.readByte s.mem (s.i.toNat + r)).getLsbD (7 - c) = true

/-! ## Opcodes by their nibbles, and the opcode map as the spec prints it (R61, R66) -/

/-- A register number as a nibble. -/
def nib (x : Reg) : Nibble := BitVec.ofFin x

/-- The opcode of four nibbles, `op ++ n1 ++ n2 ++ n3` (R61). -/
def opcode4 (op n1 n2 n3 : Nibble) : Word := op ++ n1 ++ n2 ++ n3

/-- The opcode of two nibbles and a byte (format XK or X of R63). -/
def opcodeKK (op n1 : Nibble) (kk : Byte) : Word := op ++ n1 ++ kk

/-- The opcode of a nibble and an address (format A of R63). -/
def opcodeA (op : Nibble) (addr : Addr) : Word := op ++ addr

/-- A row of the opcode map: the words it matches, and the instruction its fields give. -/
structure Row where
  mask : Word
  value : Word
  form : Word → Instr

/-- `x`, `y`, `n`, `kk`, `addr` of a word by division: bits 11:8, 7:4, 3:0, 7:0, 11:0 (R62). -/
def xOf (w : Word) : Reg := ⟨w.toNat / 256 % 16, Nat.mod_lt _ (by decide)⟩
def yOf (w : Word) : Reg := ⟨w.toNat / 16 % 16, Nat.mod_lt _ (by decide)⟩
def nOf (w : Word) : Fin 16 := ⟨w.toNat % 16, Nat.mod_lt _ (by decide)⟩
def kkOf (w : Word) : Byte := BitVec.ofNat 8 (w.toNat % 256)
def addrOf (w : Word) : Addr := BitVec.ofNat 12 (w.toNat % 4096)

/-- Rows 2 to 35 of R66, the recognized forms, in the table's order. -/
def recognizedRows : List Row :=
  [⟨0xFFFF, 0x00E0, fun _ => .cls⟩,
   ⟨0xFFFF, 0x00EE, fun _ => .ret⟩,
   ⟨0xF000, 0x1000, fun w => .jp (addrOf w)⟩,
   ⟨0xF000, 0x2000, fun w => .call (addrOf w)⟩,
   ⟨0xF000, 0x3000, fun w => .seImm (xOf w) (kkOf w)⟩,
   ⟨0xF000, 0x4000, fun w => .sneImm (xOf w) (kkOf w)⟩,
   ⟨0xF00F, 0x5000, fun w => .seReg (xOf w) (yOf w)⟩,
   ⟨0xF000, 0x6000, fun w => .ldImm (xOf w) (kkOf w)⟩,
   ⟨0xF000, 0x7000, fun w => .addImm (xOf w) (kkOf w)⟩,
   ⟨0xF00F, 0x8000, fun w => .ldReg (xOf w) (yOf w)⟩,
   ⟨0xF00F, 0x8001, fun w => .or (xOf w) (yOf w)⟩,
   ⟨0xF00F, 0x8002, fun w => .and (xOf w) (yOf w)⟩] ++
  [⟨0xF00F, 0x8003, fun w => .xor (xOf w) (yOf w)⟩,
   ⟨0xF00F, 0x8004, fun w => .addReg (xOf w) (yOf w)⟩,
   ⟨0xF00F, 0x8005, fun w => .sub (xOf w) (yOf w)⟩,
   ⟨0xF00F, 0x8006, fun w => .shr (xOf w) (yOf w)⟩,
   ⟨0xF00F, 0x8007, fun w => .subn (xOf w) (yOf w)⟩,
   ⟨0xF00F, 0x800E, fun w => .shl (xOf w) (yOf w)⟩,
   ⟨0xF00F, 0x9000, fun w => .sneReg (xOf w) (yOf w)⟩,
   ⟨0xF000, 0xA000, fun w => .ldI (addrOf w)⟩,
   ⟨0xF000, 0xB000, fun w => .jpV0 (addrOf w)⟩,
   ⟨0xF000, 0xC000, fun w => .rnd (xOf w) (kkOf w)⟩,
   ⟨0xF000, 0xD000, fun w => .drw (xOf w) (yOf w) (nOf w)⟩,
   ⟨0xF0FF, 0xE09E, fun w => .skp (xOf w)⟩] ++
  [⟨0xF0FF, 0xE0A1, fun w => .sknp (xOf w)⟩,
   ⟨0xF0FF, 0xF007, fun w => .ldFromDT (xOf w)⟩,
   ⟨0xF0FF, 0xF00A, fun w => .ldKey (xOf w)⟩,
   ⟨0xF0FF, 0xF015, fun w => .ldDT (xOf w)⟩,
   ⟨0xF0FF, 0xF018, fun w => .ldST (xOf w)⟩,
   ⟨0xF0FF, 0xF01E, fun w => .addI (xOf w)⟩,
   ⟨0xF0FF, 0xF029, fun w => .ldF (xOf w)⟩,
   ⟨0xF0FF, 0xF033, fun w => .ldB (xOf w)⟩,
   ⟨0xF0FF, 0xF055, fun w => .storeRegs (xOf w)⟩,
   ⟨0xF0FF, 0xF065, fun w => .loadRegs (xOf w)⟩]

/-- The rows of R66 that a word matches. -/
def rowsMatching (w : Word) : List Row := recognizedRows.filter fun r => w &&& r.mask == r.value

/-- The words that R68 lists as unrecognized, by major opcode. -/
def ListedUnrecognized (w : Word) : Prop :=
  (w.toNat / 4096 = 0x0 ∧ w ≠ 0x00E0#16 ∧ w ≠ 0x00EE#16) ∨
  (w.toNat / 4096 = 0x5 ∧ w.toNat % 16 ≠ 0) ∨
  (w.toNat / 4096 = 0x8 ∧ w.toNat % 16 ∈ [0x8, 0x9, 0xA, 0xB, 0xC, 0xD, 0xF]) ∨
  (w.toNat / 4096 = 0x9 ∧ w.toNat % 16 ≠ 0) ∨
  (w.toNat / 4096 = 0xE ∧ w.toNat % 256 ∉ [0x9E, 0xA1]) ∨
  (w.toNat / 4096 = 0xF ∧ w.toNat % 256 ∉ [0x07, 0x0A, 0x15, 0x18, 0x1E, 0x29, 0x33, 0x55, 0x65])

end Sys2Proof.Safety
end

