-- ==== Sys2Proof/Certificates/Slice0/Obligations.lean ====
section
/-! DEFINITION. The statements for the provers, each a formal reading of rules of spec/. OBLIGATIONS.json lists them. -/

open Sys2Proof Sys2Proof.Machine Sys2Proof.Safety

/-- For every well-formed instruction of the table and every list of bytes after it, decoding its two bytes followed by
that list answers the instruction and exactly that list. So no bit of any operand is dropped. That SYS is an
instruction with an address (log 9) and that SHR and SHL keep y, which the spec does not use (log 10), are the model's
choices. [30_encoding.md sections 1 and 3, 20_memory.md section 3] -/
def Obligations.DecodeOfEncodeIsTheInstruction : Prop :=
  ∀ (i : Instr) (rest : List Byte), i.wellFormed = true → decode (encode i ++ rest) = .ok (i, rest)

/-- For every 16-bit word: if the decoder answers an instruction, that instruction is well formed and its encoding is the
word. So two words never decode to one instruction, and the decoder never answers SYS for the words of CLS and RETURN.
That two words never do is the model's choice (log 10): SHR and SHL keep the y of their word, where R67 says that any
y value gives the same instruction; their meaning ignores it. That the decoder answers SYS at all is the model's
choice too (log 9). [30_encoding.md section 3 (R66, R67)] -/
def Obligations.EncodeOfDecodeIsTheWord : Prop :=
  ∀ (w : Word) (i : Instr), decodeWord w = .ok i → i.wellFormed = true ∧ encodeWord i = w

/-- Over rows 2 to 35 of the opcode map, each a mask, a match value and the fields: no word matches two rows; a word that
matches a row decodes to that row's instruction with its fields; a word that matches none decodes to SYS when its
major opcode is 0 and is answered unrecognized otherwise. The patterns and the strict matching are the spec's decision
D2. That a word of no row decodes to SYS when its major opcode is 0 is the model's choice (log 9): by R67, R69 and the
spec's decision D3 such a word is unrecognized, and the model gives SYS the meaning of an unrecognized word.
[30_encoding.md section 3 (the opcode map and the decoding procedure, R66, R67), 30_encoding.md R69,
92_eei_decisions.md D2, D3] -/
def Obligations.DecodePicksTheUniqueTableRow : Prop :=
  ∀ w : Word, (rowsMatching w).length ≤ 1 ∧
    (∀ r, rowsMatching w = [r] → decodeWord w = .ok (r.form w)) ∧
    (rowsMatching w = [] → decodeWord w =
      if w.toNat / 4096 = 0 then .ok (.sys (addrOf w)) else .error (.unrecognized w))

/-- For every 16-bit word: it is none of the 34 recognized forms (SYS is not one) exactly when one of the six lines of the
spec's table of unrecognized words describes it. Rests on the spec's decisions D2 and D3. [30_encoding.md section 4,
92_eei_decisions.md D2, D3] -/
def Obligations.UnrecognizedWordsAreThoseListed : Prop :=
  ∀ w : Word, recognized w = false ↔ ListedUnrecognized w

/-- The source's own word 0x6A05 and the words of vectors V-ENC-1 to V-ENC-11 decode to the instructions and operands the
spec gives; 0x0000 (V-ENC-12) decodes to SYS 0x000; and 0x5121 (V-ENC-14), 0x8AB8 (V-ENC-16), 0xE19F (V-ENC-17) and
0xF1FF (V-ENC-18) are unrecognized. V-ENC-12 prints unrecognized (SYS 0x000): that the decoder answers SYS for it is
the model's choice (log 9). The patterns and the strict matching are the spec's decision D2. [95_test_vectors.md Part
1, S3, 95_test_vectors.md Part 2, V-ENC-1 to V-ENC-12, V-ENC-14, V-ENC-16 to V-ENC-18, 30_encoding.md sections 3 and 4
(R66 to R69), 92_eei_decisions.md D2, D3] -/
def Obligations.PrintedWordsDecodeAsPrinted : Prop :=
  decodeWord 0x6A05#16 = .ok (.ldImm 0xA 0x05) ∧ decodeWord 0x00E0#16 = .ok .cls ∧
    decodeWord 0x00EE#16 = .ok .ret ∧ decodeWord 0x1ABC#16 = .ok (.jp 0xABC) ∧
    decodeWord 0x2300#16 = .ok (.call 0x300) ∧ decodeWord 0x3A05#16 = .ok (.seImm 0xA 0x05) ∧
    decodeWord 0x8AB4#16 = .ok (.addReg 0xA 0xB) ∧ decodeWord 0x81F6#16 = .ok (.shr 1 0xF) ∧
    decodeWord 0xD125#16 = .ok (.drw 1 2 5) ∧ decodeWord 0xE59E#16 = .ok (.skp 5) ∧
    decodeWord 0xFE65#16 = .ok (.loadRegs 0xE) ∧ decodeWord 0xBFFF#16 = .ok (.jpV0 0xFFF) ∧
    decodeWord 0x0000#16 = .ok (.sys 0x000) ∧ decodeWord 0x5121#16 = .error (.unrecognized 0x5121) ∧
    decodeWord 0x8AB8#16 = .error (.unrecognized 0x8AB8) ∧ decodeWord 0xE19F#16 = .error (.unrecognized 0xE19F) ∧
    decodeWord 0xF1FF#16 = .error (.unrecognized 0xF1FF)

/-- When the core has not faulted, the two bytes at PC exist and they decode to the instruction i, step answers exactly
what exec answers for i in the state in which both timers have been decremented if nonzero, the report of the step
before is cleared (the model's own field, log 2), and nothing else has changed. [40_step_cycle.md section 1 (R80 to
R84)] -/
def Obligations.StepRunsDecodedInstruction : Prop :=
  ∀ (s : State) (i : Instr), Runs s i → step s = exec i (ticked s)

/-- Fetching answers a word exactly when PC is at most 0xFFE, and then the word whose high byte is the byte at PC and
whose low byte is the byte at PC + 1, as memory is now; when PC is 0xFFF or more, a step of a core that has not
faulted raises MemoryOutOfBounds(PC). Odd PC is no exception. Fetching is a function of the state and leaves none
behind. [R82] -/
def Obligations.FetchIsBigEndianAndBounded : Prop :=
  ∀ s : State,
    (∀ w, s.fetch = some w ↔
      s.pc.toNat ≤ 0xFFE ∧ w = Memory.readByte s.mem s.pc.toNat ++ Memory.readByte s.mem (s.pc.toNat + 1)) ∧
    (s.fault = none → s.pc.toNat ≥ 0xFFF → step s = .fault (.memoryOutOfBounds s.pc))

/-- When a step answers a next state: the delay timer is one less than before, or 0 if it was 0, unless the step ran LD
DT, Vx, which leaves V[x] undecremented; the same for the sound timer and LD ST, Vx; and LD Vx, DT reads the
decremented delay timer. Steps of unrecognized opcodes and of a key wait are no exception. [R81] -/
def Obligations.StepTicksBothTimers : Prop :=
  ∀ s t : State, step s = .next t →
    ((∀ x, ¬ Runs s (.ldDT x)) → t.dt.toNat = s.dt.toNat - 1) ∧
    ((∀ x, ¬ Runs s (.ldST x)) → t.st.toNat = s.st.toNat - 1) ∧
    (∀ x, Runs s (.ldDT x) → t.dt = s.readReg x) ∧
    (∀ x, Runs s (.ldST x) → t.st = s.readReg x) ∧
    (∀ x, Runs s (.ldFromDT x) → (t.readReg x).toNat = s.dt.toNat - 1)

/-- When the word at PC is unrecognized (a SYS word among them) and the core has not faulted, the step answers a next
state: PC is 2 more, both timers have ticked (the spec's decision D26), the outcome the host sees is ok with
diagnostic UnrecognizedOpcode(PC, word), and every register and every other part of the state is unchanged. That a
step has such an outcome is the spec's decision D20 (R87). By R85 the diagnostic leaves no trace in the state: the
field diag, which the statement says holds it after the step, is the model's own choice (log 2), from which hostStep
reads the outcome. [40_step_cycle.md R81, R85, R87, 90_conflicts.md C5, C7, 92_eei_decisions.md D20, D26] -/
def Obligations.UnrecognizedOpcodeIsReportedAndPassedOver : Prop :=
  ∀ (s : State) (w : Word), Fetches s w → recognized w = false →
    ∃ t, step s = .next t ∧ t.pc = s.pc + 2 ∧ t.dt.toNat = s.dt.toNat - 1 ∧ t.st.toNat = s.st.toNat - 1 ∧
      t.diag = some ⟨s.pc, w⟩ ∧ (hostStep s).2 = .okWithDiagnostic ⟨s.pc, w⟩ ∧
      UnchangedBut [] [.delay, .sound, .report] s t

/-- For every address field, exec of SYS answers a next state with PC 2 more, the diagnostic UnrecognizedOpcode(PC, 0nnn)
and everything else unchanged; and every 0nnn word but 00E0 and 00EE decodes to SYS. The effect is the spec's (R100,
R85, its decision D3). That these words decode to a constructor SYS is the model's choice (log 9), since R69 and D3
say that they decode as unrecognized; the field that holds the diagnostic is the model's own (log 2).
[41_control_transfer.md R100, 40_step_cycle.md R85, 30_encoding.md R69, 92_eei_decisions.md D3] -/
def Obligations.SysIsReportedAndPassedOver : Prop :=
  ∀ (addr : Addr) (s : State),
    (addr ≠ 0x0E0#12 → addr ≠ 0x0EE#12 → decodeWord (opcodeA 0x0 addr) = .ok (.sys addr)) ∧
    Answers (.sys addr) s fun t => t.pc = s.pc + 2 ∧ t.diag = some ⟨s.pc, opcodeA 0x0 addr⟩ ∧
      UnchangedBut [] [.report] s t

/-- When FAULT holds a cause, step answers the fault that carries this cause, whatever PC and memory hold, and the host
finds the state unchanged. That such a step changes nothing and has a fault outcome with this cause is the spec's
decision D13. R88 says outcome fault(FAULT) again: the name stuck for it, and that it carries the cause alone, is the
model's choice (log 13). [40_step_cycle.md R88, 10_state.md R22, 92_eei_decisions.md D13] -/
def Obligations.FaultedCoreIsStuck : Prop :=
  ∀ (s : State) (c : FaultCause), s.fault = some c →
    step s = .fault (.stuck c) ∧ hostStep s = (s, .fault (.stuck c))

/-- When a step of a core that has not faulted raises the fault f: the host sees the outcome f and finds FAULT at the
cause of f; every later step leaves that state as it is; and initialize then gives a state with FAULT none and PC at
0x200. Nothing is said of the rest of the faulted state. The spec's decision D13. [60_exceptions.md R191, R199,
10_state.md R22, 92_eei_decisions.md D13] -/
def Obligations.FaultSetsTheLatchUntilInitialize : Prop :=
  ∀ (s : State) (f : Fault), s.fault = none → step s = .fault f →
    (hostStep s).2 = .fault f ∧ (hostStep s).1.fault = some f.cause ∧
    HostMove.stepOnce.apply (hostStep s).1 = (hostStep s).1 ∧
    (hostInitialize (hostStep s).1).fault = none ∧ (hostInitialize (hostStep s).1).pc = 0x200#16

/-- For every instruction of the table and every state: when the rules give it no fault condition in that state, exec
answers a next state; when they give one (CALL with 16 entries, RETURN with none, a byte address above 0xFFF for DRW
with n > 0, LD B, LD [I] and LD Vx, [I], a key index above 15 for SKP and SKNP), exec raises exactly that fault with
its information. Names and conditions not in the source are the spec's decisions D10 to D12. [40_step_cycle.md R90,
60_exceptions.md R190, R192 to R195, 92_eei_decisions.md D10, D11, D12] -/
def Obligations.InstructionsCompleteUnlessTheirFault : Prop :=
  (∀ (i : Instr) (s : State), faultCondition i s = none → ∃ t, exec i s = .next t) ∧
    (∀ (i : Instr) (s : State) (f : Fault), faultCondition i s = some f → exec i s = .fault f)

/-- When exec of an instruction answers a next state, its PC is: addr for JP and CALL, addr + V[0] for JP V0, the most
recent stack entry for RETURN, PC + 4 or PC + 2 for the skips as their condition holds or not, PC itself for LD Vx, K
with no key pressed, and PC + 2 for every other instruction. Targets are true targets, without bias (the spec's
decision D14). [40_step_cycle.md R86, 92_eei_decisions.md D14] -/
def Obligations.ProgramCounterFollowsTheTable : Prop :=
  ∀ (i : Instr) (s t : State), exec i s = .next t → PCAfter i s t.pc

/-- The word 1nnn is JP nnn, and JP answers a next state whose PC is the zero-extended address, odd or even, low or high,
with the stack as it was. [R102] -/
def Obligations.JumpSetsTheTarget : Prop :=
  ∀ (addr : Addr) (s : State), decodeWord (opcodeA 0x1 addr) = .ok (.jp addr) ∧
    Answers (.jp addr) s fun t => t.pc.toNat = addr.toNat ∧ t.sp = s.sp ∧ t.stack = s.stack

/-- The word Bnnn is JP V0, nnn, and it answers a next state whose PC is the exact sum of the address and V[0], up to
0x10FE. The register V0 is the spec's decision D6. [41_control_transfer.md R104, 92_eei_decisions.md D6] -/
def Obligations.JumpWithOffsetAddsVZero : Prop :=
  ∀ (addr : Addr) (s : State), decodeWord (opcodeA 0xB addr) = .ok (.jpV0 addr) ∧
    Answers (.jpV0 addr) s fun t => t.pc.toNat = addr.toNat + (s.readReg 0).toNat

/-- The words 3xkk, 4xkk, 5xy0 and 9xy0 are SE Vx, kk; SNE Vx, kk; SE Vx, Vy; SNE Vx, Vy. Each answers a next state in
which no register has changed and PC is 4 more when V[x] = kk, V[x] ≠ kk, V[x] = V[y], V[x] ≠ V[y] respectively, and 2
more otherwise. The comparisons are the roles the spec takes from the standard table, its decision D22.
[41_control_transfer.md R105, R106, R107, R108 and its header, 92_eei_decisions.md D22] -/
def Obligations.SkipsAdvanceByFourOrTwo : Prop :=
  ∀ (x y : Reg) (kk : Byte) (s : State),
    (decodeWord (opcodeKK 0x3 (nib x) kk) = .ok (.seImm x kk) ∧ Answers (.seImm x kk) s fun t =>
      t.v = s.v ∧ t.pc = if s.readReg x = kk then s.pc + 4 else s.pc + 2) ∧
    (decodeWord (opcodeKK 0x4 (nib x) kk) = .ok (.sneImm x kk) ∧ Answers (.sneImm x kk) s fun t =>
      t.v = s.v ∧ t.pc = if s.readReg x ≠ kk then s.pc + 4 else s.pc + 2) ∧
    (decodeWord (opcode4 0x5 (nib x) (nib y) 0x0) = .ok (.seReg x y) ∧ Answers (.seReg x y) s fun t =>
      t.v = s.v ∧ t.pc = if s.readReg x = s.readReg y then s.pc + 4 else s.pc + 2) ∧
    (decodeWord (opcode4 0x9 (nib x) (nib y) 0x0) = .ok (.sneReg x y) ∧ Answers (.sneReg x y) s fun t =>
      t.v = s.v ∧ t.pc = if s.readReg x ≠ s.readReg y then s.pc + 4 else s.pc + 2)

/-- The word 2nnn is CALL nnn. With fewer than 16 live entries it answers a next state with one entry more, PC + 2 (the
address of the next instruction) in the slot that was the first free one, every other slot as it was, and PC at the
address. With 16 live entries it raises CallStackOverflow with its own address. The stack as slots with a count of
live entries, and PC + 2 as the value pushed, are the spec's decision D15. [41_control_transfer.md R103,
60_exceptions.md R193, 10_state.md R14, 90_conflicts.md C4, 92_eei_decisions.md D15] -/
def Obligations.CallPushesTheNextAddress : Prop :=
  ∀ (addr : Addr) (s : State), decodeWord (opcodeA 0x2 addr) = .ok (.call addr) ∧
    (s.sp.val < 16 → Answers (.call addr) s fun t => t.sp.val = s.sp.val + 1 ∧
      t.stack[s.sp.val]? = some (s.pc + 2) ∧ (∀ k : Nat, k ≠ s.sp.val → t.stack[k]? = s.stack[k]?) ∧
      t.pc.toNat = addr.toNat) ∧
    (s.sp.val = 16 → exec (.call addr) s = .fault (.callStackOverflow s.pc))

/-- The word 00EE is RETURN. With a live entry it answers a next state with one entry fewer, PC at the entry popped, and
every slot's content as it was. With none it raises CallStackUnderflow with its own address, the spec's decision D11.
The stack as slots with a count, and that a popped slot keeps its content, are its decision D15.
[41_control_transfer.md R101, 10_state.md R14, 60_exceptions.md R194, 92_eei_decisions.md D11, D15] -/
def Obligations.ReturnPopsTheLastEntry : Prop :=
  ∀ s : State, decodeWord 0x00EE#16 = .ok .ret ∧
    (0 < s.sp.val → Answers .ret s fun t => t.sp.val + 1 = s.sp.val ∧
      s.stack[t.sp.val]? = some t.pc ∧ t.stack = s.stack) ∧
    (s.sp.val = 0 → exec .ret s = .fault (.callStackUnderflow s.pc))

/-- When CALL answers a next state t, then in every state that holds the stack t holds, RETURN answers a next state whose
PC is the CALL's own address plus 2 and whose stack pointer is the one before the CALL. [41_control_transfer.md R101,
R103, 95_test_vectors.md S4] -/
def Obligations.ReturnResumesAfterTheCall : Prop :=
  ∀ (addr : Addr) (s t u : State), exec (.call addr) s = .next t → u.sp = t.sp → u.stack = t.stack →
    Answers .ret u fun r => r.pc = s.pc + 2 ∧ r.sp = s.sp

/-- The words 6xkk and 8xy0 are LD Vx, kk and LD Vx, Vy. Each answers a next state with PC 2 more in which V[x] is kk,
respectively what V[y] was, and every other register (VF too, unless it is V[x]) and every other part of the state are
unchanged. For the source's example 0x6A05 the source says so itself; in general all else unchanged is the spec's
frame rule, decision D1, that a move writes no flag its decision D5 (R132), and the roles of x and y its decision D22.
[42_load_arith_logic.md R120, R122, R132, 00_scope.md R8, 92_eei_decisions.md D1, D5, D22] -/
def Obligations.LoadsWriteTheirOperand : Prop :=
  ∀ (x y : Reg) (kk : Byte) (s : State),
    (decodeWord (opcodeKK 0x6 (nib x) kk) = .ok (.ldImm x kk) ∧ Answers (.ldImm x kk) s fun t =>
      t.readReg x = kk ∧ t.pc = s.pc + 2 ∧ UnchangedBut [x] [] s t) ∧
    (decodeWord (opcode4 0x8 (nib x) (nib y) 0x0) = .ok (.ldReg x y) ∧ Answers (.ldReg x y) s fun t =>
      t.readReg x = s.readReg y ∧ t.pc = s.pc + 2 ∧ UnchangedBut [x] [] s t)

/-- The words 7xkk, 8xy1, 8xy2 and 8xy3 are ADD Vx, kk and OR, AND, XOR Vx, Vy. Each answers a next state with PC 2 more:
V[x] is (V[x] + kk) mod 256, or the bitwise or, and, exclusive or of V[x] and V[y]; every other register (VF too,
unless it is V[x]), every byte of memory and every other part of the state are unchanged. That no flag is written is
the spec's decision D5, the roles of the operands its D22, and all else unchanged its frame rule, D1.
[42_load_arith_logic.md sections 1 to 3 (R121, R123 to R125), 00_scope.md R8, 92_eei_decisions.md D1, D5, D22] -/
def Obligations.FlaglessOperationsWriteVxOnly : Prop :=
  ∀ (x y : Reg) (kk : Byte) (s : State),
    (decodeWord (opcodeKK 0x7 (nib x) kk) = .ok (.addImm x kk) ∧ Answers (.addImm x kk) s fun t =>
      (t.readReg x).toNat = ((s.readReg x).toNat + kk.toNat) % 256 ∧ t.pc = s.pc + 2 ∧
      UnchangedBut [x] [] s t) ∧
    (decodeWord (opcode4 0x8 (nib x) (nib y) 0x1) = .ok (.or x y) ∧ Answers (.or x y) s fun t =>
      (∀ b < 8, (t.readReg x).getLsbD b = ((s.readReg x).getLsbD b || (s.readReg y).getLsbD b)) ∧
      t.pc = s.pc + 2 ∧ UnchangedBut [x] [] s t) ∧
    (decodeWord (opcode4 0x8 (nib x) (nib y) 0x2) = .ok (.and x y) ∧ Answers (.and x y) s fun t =>
      (∀ b < 8, (t.readReg x).getLsbD b = ((s.readReg x).getLsbD b && (s.readReg y).getLsbD b)) ∧
      t.pc = s.pc + 2 ∧ UnchangedBut [x] [] s t) ∧
    (decodeWord (opcode4 0x8 (nib x) (nib y) 0x3) = .ok (.xor x y) ∧ Answers (.xor x y) s fun t =>
      (∀ b < 8, (t.readReg x).getLsbD b = ((s.readReg x).getLsbD b ^^ (s.readReg y).getLsbD b)) ∧
      t.pc = s.pc + 2 ∧ UnchangedBut [x] [] s t)

/-- The word 8xy4 is ADD Vx, Vy. With a and b the old V[x] and V[y], it answers a next state with PC 2 more, VF = 1 if a +
b > 255 and 0 otherwise (also when x or y is 15), and V[x] = (a + b) mod 256 when x is not 15. [R126] -/
def Obligations.AddWritesTheSumThenTheCarry : Prop :=
  ∀ (x y : Reg) (s : State), decodeWord (opcode4 0x8 (nib x) (nib y) 0x4) = .ok (.addReg x y) ∧
    Answers (.addReg x y) s fun t =>
      (t.readReg 15).toNat = (if (s.readReg x).toNat + (s.readReg y).toNat > 255 then 1 else 0) ∧
      (x ≠ 15 → (t.readReg x).toNat = ((s.readReg x).toNat + (s.readReg y).toNat) % 256) ∧
      t.pc = s.pc + 2

/-- The word 8xy5 is SUB Vx, Vy. With a and b the old V[x] and V[y], it answers a next state with PC 2 more, VF = 1 if a ≥
b and 0 otherwise (also when x or y is 15), and, when x is not 15, V[x] = a - b if a ≥ b and a - b + 256 if not.
[R127] -/
def Obligations.SubWritesTheDifferenceThenNoBorrow : Prop :=
  ∀ (x y : Reg) (s : State), decodeWord (opcode4 0x8 (nib x) (nib y) 0x5) = .ok (.sub x y) ∧
    Answers (.sub x y) s fun t =>
      (t.readReg 15).toNat = (if (s.readReg x).toNat ≥ (s.readReg y).toNat then 1 else 0) ∧
      (x ≠ 15 → ((t.readReg x).toNat : Int) = (((s.readReg x).toNat : Int) - (s.readReg y).toNat) % 256) ∧
      t.pc = s.pc + 2

/-- The word 8xy7 is SUBN Vx, Vy. With a and b the old V[x] and V[y], it answers a next state with PC 2 more, VF = 1 if b
≥ a and 0 otherwise (also when x or y is 15), and, when x is not 15, V[x] = (b - a) mod 256. The operand order is the
spec's decision D22. [42_load_arith_logic.md R129, 92_eei_decisions.md D22] -/
def Obligations.SubnWritesTheReverseDifference : Prop :=
  ∀ (x y : Reg) (s : State), decodeWord (opcode4 0x8 (nib x) (nib y) 0x7) = .ok (.subn x y) ∧
    Answers (.subn x y) s fun t =>
      (t.readReg 15).toNat = (if (s.readReg y).toNat ≥ (s.readReg x).toNat then 1 else 0) ∧
      (x ≠ 15 → ((t.readReg x).toNat : Int) = (((s.readReg y).toNat : Int) - (s.readReg x).toNat) % 256) ∧
      t.pc = s.pc + 2

/-- The words 8xy6 and 8xyE are SHR Vx and SHL Vx for every y. With a the old V[x], each answers a next state with PC 2
more: SHR leaves VF = a mod 2 and, when x is not 15, V[x] = a div 2; SHL leaves VF = a div 128 and, when x is not 15,
V[x] = 2a mod 256. What y names is not read: the next state is the same for every y. That V[x] is the register shifted
is the spec's decision D4. [42_load_arith_logic.md R128, R130, 90_conflicts.md C2, 92_eei_decisions.md D4] -/
def Obligations.ShiftsMoveVxByOneThenTheBitShiftedOut : Prop :=
  ∀ (x y : Reg) (s : State),
    (decodeWord (opcode4 0x8 (nib x) (nib y) 0x6) = .ok (.shr x y) ∧ Answers (.shr x y) s fun t =>
      (t.readReg 15).toNat = (s.readReg x).toNat % 2 ∧
      (x ≠ 15 → (t.readReg x).toNat = (s.readReg x).toNat / 2) ∧ t.pc = s.pc + 2 ∧
      ∀ z, exec (.shr x z) s = .next t) ∧
    (decodeWord (opcode4 0x8 (nib x) (nib y) 0xE) = .ok (.shl x y) ∧ Answers (.shl x y) s fun t =>
      (t.readReg 15).toNat = (s.readReg x).toNat / 128 ∧
      (x ≠ 15 → (t.readReg x).toNat = 2 * (s.readReg x).toNat % 256) ∧ t.pc = s.pc + 2 ∧
      ∀ z, exec (.shl x z) s = .next t)

/-- The word Cxkk is RND Vx, kk. It answers a next state with PC 2 more in which V[x] is the free byte of this draw and
kk, so V[x] has no bit that kk lacks, and the model's count of draws (log 3) is one more, so the next draw is another
free byte. VF is unchanged unless it is V[x]. The draw is the spec's decision D18; nothing is claimed of its value.
[42_load_arith_logic.md R131, 92_eei_decisions.md D18, 93_implementation_defined.md U2] -/
def Obligations.RndMasksAFreeByte : Prop :=
  ∀ (x : Reg) (kk : Byte) (s : State), decodeWord (opcodeKK 0xC (nib x) kk) = .ok (.rnd x kk) ∧
    Answers (.rnd x kk) s fun t =>
      t.readReg x = Config.rand s.draws &&& kk ∧ t.draws = s.draws + 1 ∧
      (∀ b, (t.readReg x).getLsbD b = true → kk.getLsbD b = true) ∧
      (x ≠ 15 → t.readReg 15 = s.readReg 15) ∧ t.pc = s.pc + 2

/-- The word Annn is LD I, nnn, and it answers a next state with I equal to the address (so bits 15:12 of I are 0) and PC
2 more. [R140] -/
def Obligations.LoadIndexZeroExtendsTheAddress : Prop :=
  ∀ (addr : Addr) (s : State), decodeWord (opcodeA 0xA addr) = .ok (.ldI addr) ∧
    Answers (.ldI addr) s fun t => t.i.toNat = addr.toNat ∧ t.pc = s.pc + 2

/-- The words Fx1E and Fx29 are ADD I, Vx and LD F, Vx. Each answers a next state with PC 2 more and every general
register unchanged; I is (I + V[x]) mod 65536, respectively 5·V[x] for every byte V[x]. The wrap without a flag is the
spec's decision D8, the formula beyond digits its D9. [43_index_memory.md R141, R142, 92_eei_decisions.md D8, D9] -/
def Obligations.AddIndexAndGlyphAddress : Prop :=
  ∀ (x : Reg) (s : State),
    (decodeWord (opcodeKK 0xF (nib x) 0x1E) = .ok (.addI x) ∧ Answers (.addI x) s fun t =>
      t.i.toNat = (s.i.toNat + (s.readReg x).toNat) % 65536 ∧ t.v = s.v ∧ t.pc = s.pc + 2) ∧
    (decodeWord (opcodeKK 0xF (nib x) 0x29) = .ok (.ldF x) ∧ Answers (.ldF x) s fun t =>
      t.i.toNat = 5 * (s.readReg x).toNat ∧ t.v = s.v ∧ t.pc = s.pc + 2)

/-- The word Fx33 is LD B, Vx. When I is at most 0xFFD it answers a next state with PC 2 more, the digits of V[x] at the
three addresses (so 0 to 2, 0 to 9, 0 to 9, one a byte), every other byte of memory as it was, and I and V[x]
unchanged. When I is above 0xFFD it raises MemoryOutOfBounds(I). That I is unchanged is the spec's decision D7; the
fault, checked for the whole instruction before any effect, is its decision D12. [43_index_memory.md R143, R146,
20_memory.md R46, 60_exceptions.md R192, 92_eei_decisions.md D7, D12] -/
def Obligations.StoreBcdWritesThreeDigits : Prop :=
  ∀ (x : Reg) (s : State), decodeWord (opcodeKK 0xF (nib x) 0x33) = .ok (.ldB x) ∧
    (s.i.toNat ≤ 0xFFD → Answers (.ldB x) s fun t =>
      (Memory.readByte t.mem s.i.toNat).toNat = (s.readReg x).toNat / 100 ∧
      (Memory.readByte t.mem (s.i.toNat + 1)).toNat = (s.readReg x).toNat / 10 % 10 ∧
      (Memory.readByte t.mem (s.i.toNat + 2)).toNat = (s.readReg x).toNat % 10 ∧
      (∀ a, a < s.i.toNat ∨ s.i.toNat + 3 ≤ a → Memory.readByte t.mem a = Memory.readByte s.mem a) ∧
      t.i = s.i ∧ t.readReg x = s.readReg x ∧ t.pc = s.pc + 2) ∧
    (s.i.toNat > 0xFFD → exec (.ldB x) s = .fault (.memoryOutOfBounds s.i))

/-- The word Fx55 is LD [I], Vx. When I + x is at most 0xFFF it answers a next state with PC 2 more in which the byte at I
+ k is V[k] for every k up to x, every other byte of memory is as it was, and I is unchanged (the spec's decision D7).
Otherwise it raises MemoryOutOfBounds(I). [43_index_memory.md R144, 92_eei_decisions.md D7, D12] -/
def Obligations.RegisterDumpStoresV0ToVx : Prop :=
  ∀ (x : Reg) (s : State), decodeWord (opcodeKK 0xF (nib x) 0x55) = .ok (.storeRegs x) ∧
    (s.i.toNat + x.val ≤ 0xFFF → Answers (.storeRegs x) s fun t =>
      (∀ k : Reg, k ≤ x → Memory.readByte t.mem (s.i.toNat + k.val) = s.readReg k) ∧
      (∀ a, a < s.i.toNat ∨ s.i.toNat + x.val < a → Memory.readByte t.mem a = Memory.readByte s.mem a) ∧
      t.i = s.i ∧ t.pc = s.pc + 2) ∧
    (s.i.toNat + x.val > 0xFFF → exec (.storeRegs x) s = .fault (.memoryOutOfBounds s.i))

/-- The word Fx65 is LD Vx, [I]. When I + x is at most 0xFFF it answers a next state with PC 2 more in which V[k] is the
byte at I + k for every k up to x (VF too when x is 15), every higher register is unchanged, and I is unchanged (the
spec's decision D7). Otherwise it raises MemoryOutOfBounds(I). [43_index_memory.md R145, 92_eei_decisions.md D7, D12] -/
def Obligations.RegisterLoadFillsV0ToVx : Prop :=
  ∀ (x : Reg) (s : State), decodeWord (opcodeKK 0xF (nib x) 0x65) = .ok (.loadRegs x) ∧
    (s.i.toNat + x.val ≤ 0xFFF → Answers (.loadRegs x) s fun t =>
      (∀ k : Reg, k ≤ x → t.readReg k = Memory.readByte s.mem (s.i.toNat + k.val)) ∧
      (∀ k : Reg, x < k → t.readReg k = s.readReg k) ∧ t.i = s.i ∧ t.pc = s.pc + 2) ∧
    (s.i.toNat + x.val > 0xFFF → exec (.loadRegs x) s = .fault (.memoryOutOfBounds s.i))

/-- When LD [I], Vx answers a next state t, then in every state that holds the memory and the I of t, LD Vx, [I] answers a
next state in which V[0] to V[x] are what they were when they were stored. [43_index_memory.md R144, R145,
20_memory.md R44] -/
def Obligations.DumpThenLoadRestoresTheRegisters : Prop :=
  ∀ (x : Reg) (s t u : State), exec (.storeRegs x) s = .next t → u.mem = t.mem → u.i = t.i →
    Answers (.loadRegs x) u fun r => ∀ k : Reg, k ≤ x → r.readReg k = s.readReg k

/-- When LD [I], Vx answers a next state t, then in every state that holds the memory of t and whose PC is I + k with k +
1 at most x, the word fetched is V[k] followed by V[k + 1] as they were stored; when LD B, Vx does, the word fetched
at I is the hundreds digit followed by the tens digit. [20_memory.md R52, 70_reset_and_hazards.md R233] -/
def Obligations.StoresAreSeenByTheNextFetch : Prop :=
  (∀ (x k l : Reg) (s t u : State), exec (.storeRegs x) s = .next t → l.val = k.val + 1 → l ≤ x → u.mem = t.mem →
      u.pc.toNat = s.i.toNat + k.val → u.fetch = some (s.readReg k ++ s.readReg l)) ∧
    (∀ (x : Reg) (s t u : State), exec (.ldB x) s = .next t → u.mem = t.mem → u.pc = s.i →
      u.fetch = some (BitVec.ofNat 8 ((s.readReg x).toNat / 100) ++ BitVec.ofNat 8 ((s.readReg x).toNat / 10 % 10)))

/-- The word 00E0 is CLS, and it answers a next state with PC 2 more, every one of the 64 × 32 pixels 0, and every general
register (VF too), I and memory unchanged. The meaning of the name is the spec's decision D22. [44_display.md R150,
92_eei_decisions.md D22] -/
def Obligations.ClearScreenDarkensEveryPixel : Prop :=
  ∀ s : State, decodeWord 0x00E0#16 = .ok .cls ∧ Answers .cls s fun t =>
    (∀ (X : Fin 64) (Y : Fin 32), Display.pixel t.disp X Y = false) ∧ t.v = s.v ∧ t.i = s.i ∧ t.mem = s.mem ∧
    t.pc = s.pc + 2

/-- The word Dxyn is DRW Vx, Vy, n. When n is 0 or I + n - 1 is at most 0xFFF it answers a next state with PC 2 more in
which a pixel is toggled if the sprite of n rows at I, drawn at (V[x], V[y]) with both coordinates wrapped, has a bit
1 there, and unchanged if not; VF is 1 if some pixel went from 1 to 0 and 0 otherwise, also when x or y is 15.
Otherwise it raises MemoryOutOfBounds(I). The bit order is the spec's decision D16. [44_display.md R151, R152,
92_eei_decisions.md D12, D16] -/
def Obligations.DrawXorsTheSpriteAndFlagsErasure : Prop :=
  ∀ (x y : Reg) (n : Fin 16) (s : State),
    decodeWord (opcode4 0xD (nib x) (nib y) (BitVec.ofFin n)) = .ok (.drw x y n) ∧
    (n.val = 0 ∨ s.i.toNat + (n.val - 1) ≤ 0xFFF → Answers (.drw x y n) s fun t =>
      (∀ X Y, SpriteCovers s (s.readReg x) (s.readReg y) n.val X Y →
        Display.pixel t.disp X Y = !(Display.pixel s.disp X Y)) ∧
      (∀ X Y, ¬ SpriteCovers s (s.readReg x) (s.readReg y) n.val X Y →
        Display.pixel t.disp X Y = Display.pixel s.disp X Y) ∧
      ((∃ X Y, Display.pixel s.disp X Y = true ∧ Display.pixel t.disp X Y = false) → t.readReg 15 = 1) ∧
      ((∀ X Y, Display.pixel s.disp X Y = true → Display.pixel t.disp X Y = true) → t.readReg 15 = 0) ∧
      t.pc = s.pc + 2) ∧
    (n.val > 0 → s.i.toNat + (n.val - 1) > 0xFFF → exec (.drw x y n) s = .fault (.memoryOutOfBounds s.i))

/-- When DRW Vx, Vy, n answers a next state t and again, in a state with the display, memory and I of t and the same two
coordinates, a next state u, then every pixel of u is as it was before the first draw; and if the display was dark
before the first draw, VF is 0 after the first draw, and after the second it is 1 exactly when some row of the sprite
is not zero. [44_display.md R151 corner case (c), R153, 95_test_vectors.md S5] -/
def Obligations.DrawingTwiceRestoresTheDisplay : Prop :=
  ∀ (x y : Reg) (n : Fin 16) (s t t' u : State), exec (.drw x y n) s = .next t →
    t'.disp = t.disp → t'.mem = t.mem → t'.i = t.i → t'.readReg x = s.readReg x → t'.readReg y = s.readReg y →
    exec (.drw x y n) t' = .next u →
    (∀ X Y, Display.pixel u.disp X Y = Display.pixel s.disp X Y) ∧
    ((∀ X Y, Display.pixel s.disp X Y = false) →
      t.readReg 15 = 0 ∧ (u.readReg 15 = 1 ↔ ∃ r < n.val, Memory.readByte s.mem (s.i.toNat + r) ≠ 0))

/-- The words Fx07, Fx15 and Fx18 are LD Vx, DT, LD DT, Vx and LD ST, Vx. In the state the tick has left, each answers a
next state with PC 2 more: V[x] is DT and DT is not changed by reading, DT is V[x], ST is V[x]. With
StepTicksBothTimers the value written is first decremented by the next step. [45_timers_keypad.md R162, R164, R165,
92_eei_decisions.md D22] -/
def Obligations.TimerInstructionsMoveTheTimers : Prop :=
  ∀ (x : Reg) (s : State),
    (decodeWord (opcodeKK 0xF (nib x) 0x07) = .ok (.ldFromDT x) ∧ Answers (.ldFromDT x) s fun t =>
      t.readReg x = s.dt ∧ t.dt = s.dt ∧ t.pc = s.pc + 2) ∧
    (decodeWord (opcodeKK 0xF (nib x) 0x15) = .ok (.ldDT x) ∧ Answers (.ldDT x) s fun t =>
      t.dt = s.readReg x ∧ t.pc = s.pc + 2) ∧
    (decodeWord (opcodeKK 0xF (nib x) 0x18) = .ok (.ldST x) ∧ Answers (.ldST x) s fun t =>
      t.st = s.readReg x ∧ t.pc = s.pc + 2)

/-- The words Ex9E and ExA1 are SKP Vx and SKNP Vx. When V[x] is the index k of a key, each answers a next state: SKP with
PC 4 more if KEY[k] is 1 and 2 more if 0, SKNP the other way round, the key flags unchanged. When V[x] is above 15,
each raises KeyIndexOutOfRange(V[x]), the spec's decision D10. [45_timers_keypad.md R160, R161, 60_exceptions.md R195,
92_eei_decisions.md D10] -/
def Obligations.KeySkipsReadTheKeyLevel : Prop :=
  ∀ (x : Reg) (s : State),
    decodeWord (opcodeKK 0xE (nib x) 0x9E) = .ok (.skp x) ∧ decodeWord (opcodeKK 0xE (nib x) 0xA1) = .ok (.sknp x) ∧
    (∀ k : Fin 16, (s.readReg x).toNat = k.val →
      (Answers (.skp x) s fun t => t.key = s.key ∧ t.pc = if s.key.get k = true then s.pc + 4 else s.pc + 2) ∧
      (Answers (.sknp x) s fun t => t.key = s.key ∧ t.pc = if s.key.get k = false then s.pc + 4 else s.pc + 2)) ∧
    ((s.readReg x).toNat > 15 →
      exec (.skp x) s = .fault (.keyIndexOutOfRange (s.readReg x)) ∧
      exec (.sknp x) s = .fault (.keyIndexOutOfRange (s.readReg x)))

/-- The word Fx0A is LD Vx, K. When k is pressed and no key of a lower index is, it answers a next state with V[x] = k, PC
2 more and the key flags as they were. When no key is pressed it answers the state itself, with PC unchanged; and when
the next step runs it and no key is pressed, then for every n the first n steps all answer next states, after which
PC, every register and every other part of the state is unchanged, but each timer has gone down by n or to 0, so
nothing records the wait. The key and the poll are R163, the amounts of the timers R81; that all else is unchanged
over the polls is the spec's frame rule, decision D1 (R8). A run of core is steps alone: no move of the host falls
between them (log 14), so no key is pressed during it. The report, which a poll clears, is the model's own field (log
2). [45_timers_keypad.md R163, 40_step_cycle.md R81, 10_state.md R23, 00_scope.md R8, 50_host_interface.md R171,
92_eei_decisions.md D1, D21] -/
def Obligations.KeyWaitTakesTheLowestKeyOrPolls : Prop :=
  ∀ (x : Reg) (s : State), decodeWord (opcodeKK 0xF (nib x) 0x0A) = .ok (.ldKey x) ∧
    (∀ k : Fin 16, s.key.get k = true → (∀ j < k, s.key.get j = false) →
      Answers (.ldKey x) s fun t => (t.readReg x).toNat = k.val ∧ t.key = s.key ∧ t.pc = s.pc + 2) ∧
    ((∀ k : Fin 16, s.key.get k = false) → exec (.ldKey x) s = .next s) ∧
    (Runs s (.ldKey x) → (∀ k : Fin 16, s.key.get k = false) →
      ∀ n : Nat, ∃ t, Host.Core.run core n s = .next t ∧ t.pc = s.pc ∧ t.dt.toNat = s.dt.toNat - n ∧
        t.st.toNat = s.st.toNat - n ∧ UnchangedBut [] [.delay, .sound, .report] s t)

/-- When exec answers a next state: LD Vx, kk; ADD Vx, kk; LD Vx, Vy; OR; AND; XOR; LD Vx, DT and LD Vx, K leave every
register but V[x], every byte of memory and every other part of the state as it was; ADD Vx, Vy; SUB; SUBN; SHR and
SHL all but V[x] and VF; RND all but V[x] and the model's count of draws; LD Vx, [I] all but V[0] to V[x]. Rests on
the spec's frame rule, decision D1. [42_load_arith_logic.md (every instruction rule), 43_index_memory.md R145,
45_timers_keypad.md R162, R163, 00_scope.md R8, 92_eei_decisions.md D1, D5] -/
def Obligations.RegisterFormsChangeOnlyTheirDestination : Prop :=
  (∀ (x y : Reg) (kk : Byte) (s t : State),
      ∀ i ∈ [Instr.ldImm x kk, .addImm x kk, .ldReg x y, .or x y, .and x y, .xor x y, .ldFromDT x, .ldKey x],
        exec i s = .next t → UnchangedBut [x] [] s t) ∧
    (∀ (x y : Reg) (s t : State), ∀ i ∈ [Instr.addReg x y, .sub x y, .subn x y, .shr x y, .shl x y],
        exec i s = .next t → UnchangedBut [x, 15] [] s t) ∧
    (∀ (x : Reg) (kk : Byte) (s t : State), exec (.rnd x kk) s = .next t → UnchangedBut [x] [.drawCount] s t) ∧
    (∀ (x : Reg) (s t : State), exec (.loadRegs x) s = .next t →
        UnchangedBut ((List.finRange 16).filter fun k => k ≤ x) [] s t)

/-- When exec answers a next state: JP, JP V0, the four SE and SNE forms, SKP and SKNP leave every register, every byte of
memory and every other part of the state but PC as it was; CALL and RETURN all but the stack, CALL leaving every slot
but its own and RETURN every slot. Rests on the spec's frame rule, decision D1. [41_control_transfer.md (every
instruction rule), 45_timers_keypad.md R160, R161, 00_scope.md R8, 92_eei_decisions.md D1] -/
def Obligations.ControlFormsChangeOnlyPcAndStack : Prop :=
  (∀ (x y : Reg) (kk : Byte) (addr : Addr) (s t : State),
      ∀ i ∈ [Instr.jp addr, .jpV0 addr, .seImm x kk, .sneImm x kk, .seReg x y, .sneReg x y, .skp x, .sknp x],
        exec i s = .next t → UnchangedBut [] [] s t) ∧
    (∀ (addr : Addr) (s t : State), exec (.call addr) s = .next t →
        UnchangedBut [] [.stack] s t ∧ ∀ k : Nat, k ≠ s.sp.val → t.stack[k]? = s.stack[k]?) ∧
    (∀ s t : State, exec .ret s = .next t → UnchangedBut [] [.stack] s t ∧ t.stack = s.stack)

/-- When exec answers a next state: LD I, addr; ADD I, Vx and LD F, Vx leave every register, every byte of memory and
every part of the state but I and PC as it was; LD DT, Vx all but the delay timer and PC; LD ST, Vx all but the sound
timer and PC. Rests on the spec's frame rule, decision D1. [43_index_memory.md R140 to R142, 45_timers_keypad.md R164,
R165, 00_scope.md R8, 92_eei_decisions.md D1] -/
def Obligations.IndexAndTimerFormsChangeOnlyTheirTarget : Prop :=
  (∀ (x : Reg) (addr : Addr) (s t : State), ∀ i ∈ [Instr.ldI addr, .addI x, .ldF x],
        exec i s = .next t → UnchangedBut [] [.index] s t) ∧
    (∀ (x : Reg) (s t : State), exec (.ldDT x) s = .next t → UnchangedBut [] [.delay] s t) ∧
    (∀ (x : Reg) (s t : State), exec (.ldST x) s = .next t → UnchangedBut [] [.sound] s t)

/-- When exec answers a next state: LD B, Vx leaves every register, I and every other part of the state as it was, and
every byte of memory outside the 3 from EA(0), the effective address the meaning computes from I; LD [I], Vx the same
with x + 1 bytes. Rests on the spec's decisions D1 and D7. [43_index_memory.md R143, R144, R146, 00_scope.md R8,
92_eei_decisions.md D1, D7] -/
def Obligations.StoringFormsChangeOnlyTheStoredBytes : Prop :=
  (∀ (x : Reg) (s t : State), exec (.ldB x) s = .next t → UnchangedBut [] [.memory] s t ∧
      ∀ ea, effectiveAddress s 0 = ea →
        ∀ a, a < ea ∨ ea + 3 ≤ a → Memory.readByte t.mem a = Memory.readByte s.mem a) ∧
    (∀ (x : Reg) (s t : State), exec (.storeRegs x) s = .next t → UnchangedBut [] [.memory] s t ∧
      ∀ ea, effectiveAddress s 0 = ea →
        ∀ a, a < ea ∨ ea + (x.val + 1) ≤ a → Memory.readByte t.mem a = Memory.readByte s.mem a)

/-- When exec answers a next state: CLS leaves every register, every byte of memory and every part of the state but the
display and PC as it was; DRW all but the display, VF and PC; SYS all but PC and the report (the model's own field,
log 2). Rests on the spec's decisions D1 and D7, for SYS on its decision D3. [44_display.md R150, R151,
41_control_transfer.md R100, 40_step_cycle.md R85, 00_scope.md R8, 92_eei_decisions.md D1, D3, D7] -/
def Obligations.DisplayFormsChangeOnlyTheDisplayAndVF : Prop :=
  (∀ s t : State, exec .cls s = .next t → UnchangedBut [] [.display] s t) ∧
    (∀ (x y : Reg) (n : Fin 16) (s t : State), exec (.drw x y n) s = .next t → UnchangedBut [15] [.display] s t) ∧
    (∀ (addr : Addr) (s t : State), exec (.sys addr) s = .next t → UnchangedBut [] [.report] s t)

/-- When exec of ADD Vx, Vy; SUB; SHR; SUBN; SHL or DRW answers a next state, VF is 0 or 1 in it, whatever x is; when exec
of any other instruction does, VF is unchanged unless the instruction's destination x is 15. The list of the flag
writers is the spec's decision D5. [10_state.md R11, R26, 42_load_arith_logic.md R132, 92_eei_decisions.md D5] -/
def Obligations.FlagWritersLeaveZeroOrOneInVF : Prop :=
  ∀ (i : Instr) (s t : State), exec i s = .next t →
    if (∃ x y, i ∈ [Instr.addReg x y, .sub x y, .shr x y, .subn x y, .shl x y]) ∨ (∃ x y n, i = .drw x y n) then
      t.readReg 15 = 0 ∨ t.readReg 15 = 1
    else
      t.readReg 15 = s.readReg 15 ∨
        ∃ y kk, i ∈ [Instr.ldImm 15 kk, .addImm 15 kk, .ldReg 15 y, .or 15 y, .and 15 y, .xor 15 y, .rnd 15 kk,
          .ldFromDT 15, .ldKey 15, .loadRegs 15]

/-- When a step answers a next state: the key flags are as they were and FAULT is none; a byte of memory has changed only
if the step ran LD B or LD [I], Vx; a pixel only if it ran CLS or DRW; the stack only if it ran CALL or RETURN. The
clause on FAULT is R22 and R88, the spec's decision D13. [20_memory.md R40, 44_display.md R153, 10_state.md R14, R21,
R22, 40_step_cycle.md R88, 92_eei_decisions.md D13] -/
def Obligations.EachSpaceIsWrittenOnlyByItsInstructions : Prop :=
  ∀ s t : State, step s = .next t →
    t.key = s.key ∧ t.fault = none ∧
    ((∃ a, Memory.readByte t.mem a ≠ Memory.readByte s.mem a) → ∃ x, Runs s (.ldB x) ∨ Runs s (.storeRegs x)) ∧
    (t.disp ≠ s.disp → Runs s .cls ∨ ∃ x y n, Runs s (.drw x y n)) ∧
    (t.sp ≠ s.sp ∨ t.stack ≠ s.stack → Runs s .ret ∨ ∃ addr, Runs s (.call addr))

/-- In State.reset memory is in canonical form, PC is at most 0x10FE, every live stack entry is at most 0x1000, and PC and
every live stack entry are even. The canonical form of memory is the model's own choice (log 1). [10_state.md R25,
R26, 20_memory.md R41] -/
def Obligations.InvariantHoldsAtReset : Prop :=
  Inv State.reset ∧ EvenPC State.reset

/-- For every state that satisfies the invariant, not only those of a run from reset: if step answers a next state, it
satisfies the invariant. Memory stays strictly rising inside 0x000..0xFFF with no cell at its reset contents (the
canonical form is the model's own); PC stays at most 0x10FE, so PC + 2 and PC + 4 never wrap; every live stack entry
stays at most 0x1000. [10_state.md R13, R14, R26, 40_step_cycle.md R86, 41_control_transfer.md R101, R104,
20_memory.md R46] -/
def Obligations.StepKeepsTheInvariant : Prop :=
  ∀ s t : State, Inv s → step s = .next t → Inv t

/-- For every host move (initialize, load_program with any bytes, set_key with any index and level, step) and every state:
if the state has faulted or satisfies the invariant, so does the state after the move. The canonical form of memory is
the model's own; of a faulted state nothing is claimed. [50_host_interface.md R170 to R177, 60_exceptions.md R191,
20_memory.md R41] -/
def Obligations.EveryHostMoveKeepsTheInvariant : Prop :=
  ∀ (m : HostMove) (s : State), InvUnlessFaulted s → InvUnlessFaulted (m.apply s)

/-- In every state where PC and the live stack entries are even: if the target of the instruction the step runs, where it
is JP, CALL or JP V0, is even, and the step answers a next state, then PC and the live stack entries are even in it.
[10_state.md R13, R26, 90_conflicts.md C3] -/
def Obligations.PcStaysEvenWhileTargetsAreEven : Prop :=
  ∀ s t : State, EvenPC s → (∀ i, Runs s i → EvenTarget i (ticked s)) → step s = .next t → EvenPC t

/-- State.reset, and initialize from any state (a faulted one too), has every V register, I, the stack pointer, every
stack slot and both timers 0, PC at 0x200, the 80 bytes of the font table at 0x000..0x04F and 0 in every other byte of
memory, every pixel and key flag 0, FAULT none. The bytes of glyphs 1 to F are the spec's, from general knowledge
(D17); SP and FAULT are its decisions D15 and D13. [10_state.md R24, R25, 70_reset_and_hazards.md R220,
50_host_interface.md R172, 92_eei_decisions.md D13, D15, D17] -/
def Obligations.InitializeGivesTheResetValues : Prop :=
  ∀ s : State, ∀ r ∈ [State.reset, hostInitialize s],
    (∀ x, r.readReg x = 0) ∧ r.i = 0 ∧ r.pc = 0x200#16 ∧ r.sp.val = 0 ∧ (∀ k < 16, r.stack[k]? = some 0) ∧
    r.dt = 0 ∧ r.st = 0 ∧ (∀ X Y, Display.pixel r.disp X Y = false) ∧ (∀ k, r.key.get k = false) ∧ r.fault = none ∧
    Memory.readBytes r.mem 0x000 80 =
      [0xF0, 0x90, 0x90, 0x90, 0xF0, 0x20, 0x60, 0x20, 0x20, 0x70, 0xF0, 0x10, 0xF0, 0x80, 0xF0, 0xF0, 0x10, 0xF0, 0x10, 0xF0] ++
      [0x90, 0x90, 0xF0, 0x10, 0x10, 0xF0, 0x80, 0xF0, 0x10, 0xF0, 0xF0, 0x80, 0xF0, 0x90, 0xF0, 0xF0, 0x10, 0x20, 0x40, 0x40] ++
      [0xF0, 0x90, 0xF0, 0x90, 0xF0, 0xF0, 0x90, 0xF0, 0x10, 0xF0, 0xF0, 0x90, 0xF0, 0x90, 0x90, 0xE0, 0x90, 0xE0, 0x90, 0xE0] ++
      [0xF0, 0x80, 0x80, 0x80, 0xF0, 0xE0, 0x90, 0x90, 0x90, 0xE0, 0xF0, 0x80, 0xF0, 0x80, 0xF0, 0xF0, 0x80, 0xF0, 0x80, 0x80] ∧
    (∀ a, 80 ≤ a → Memory.readByte r.mem a = 0)

/-- With at most 3584 bytes load_program succeeds: byte k of the program is at 0x200 + k, every byte of memory outside the
loaded range is as it was, and so is every register, PC and every other part of the state, whatever was loaded before.
With more it answers ProgramTooLarge, the core is unchanged and FAULT with it. That a later load is the same copy,
whatever was loaded before, is the spec's decision D21 (R174); that a refused load leaves FAULT alone is derived in
R175. [50_host_interface.md R174, R175, 92_eei_decisions.md D21] -/
def Obligations.LoadProgramCopiesItsBytes : Prop :=
  ∀ (bytes : List Byte) (s : State),
    (bytes.length ≤ 3584 → ∃ t, loadProgram bytes s = .ok t ∧ (HostMove.load bytes).apply s = t ∧
      (∀ k b, bytes[k]? = some b → Memory.readByte t.mem (0x200 + k) = b) ∧
      (∀ a, a < 0x200 ∨ 0x200 + bytes.length ≤ a → Memory.readByte t.mem a = Memory.readByte s.mem a) ∧
      t.pc = s.pc ∧ UnchangedBut [] [.memory] s t) ∧
    (bytes.length > 3584 → loadProgram bytes s = .error .programTooLarge ∧ (HostMove.load bytes).apply s = s)

/-- From any state, initialize and then load_program of any program of 2 to 3584 bytes leave the core ready to run it: the
next fetch is at 0x200 and gives the first byte as the high half and the second as the low half of the opcode, and
FAULT is none. [70_reset_and_hazards.md R221, R222, 50_host_interface.md R174, 20_memory.md R43] -/
def Obligations.LoadedProgramIsFetchedAtReset : Prop :=
  ∀ (hi lo : Byte) (rest : List Byte) (s : State), rest.length ≤ 3582 →
    ∃ t, loadProgram (hi :: lo :: rest) (hostInitialize s) = .ok t ∧ t.pc = 0x200#16 ∧ Fetches t (hi ++ lo)

/-- With an index of 0 to 15 set_key succeeds: that flag is the level given, the other 15 flags, every register, PC and
every other part of the state are as they were. With a higher index it answers InvalidKeyIndex and the core is
unchanged, FAULT with it. [R176, R177] -/
def Obligations.SetKeyWritesOneFlag : Prop :=
  ∀ (index : Nat) (pressed : Bool) (s : State),
    (∀ k : Fin 16, k.val = index → ∃ t, setKey index pressed s = .ok t ∧ (HostMove.key index pressed).apply s = t ∧
      t.key.get k = pressed ∧ (∀ j, j ≠ k → t.key.get j = s.key.get j) ∧
      t.pc = s.pc ∧ UnchangedBut [] [.keys] s t) ∧
    (index > 15 → setKey index pressed s = .error .invalidKeyIndex ∧ (HostMove.key index pressed).apply s = s)

/-- display_snapshot has 2048 elements, and element 64·y + x is the pixel DISP[x, y], true when lit; sound_timer_value is
ST. Both are functions of the state, so they change none, and a snapshot taken does not follow later steps. [R179,
R180] -/
def Obligations.SnapshotIsRowMajor : Prop :=
  ∀ s : State, (displaySnapshot s).length = 2048 ∧
    (∀ (x : Fin 64) (y : Fin 32), (displaySnapshot s)[64 * y.val + x.val]? = some (Display.pixel s.disp x y)) ∧
    soundTimerValue s = s.st

/-- When PC holds the address of a JP to that same address and the core has not faulted, then for every k the first k
steps all answer next states, after which PC, every register and every other part of the state is unchanged, each
timer has gone down by k or to 0, and the run has still ended. That this is the end of a run is the spec's convention
D24; the amounts of the timers are R81, all else unchanged the spec's frame rule, decision D1. A run of core is steps
alone, with no move of the host between them (log 14); the report is the model's own field (log 2).
[70_reset_and_hazards.md R223, 41_control_transfer.md R102, 40_step_cycle.md R81, 00_scope.md R8, 92_eei_decisions.md
D1, D24] -/
def Obligations.SelfJumpIsTheEndOfARun : Prop :=
  ∀ s : State, RunEnded s → ∀ k : Nat, ∃ t, Host.Core.run core k s = .next t ∧ RunEnded t ∧ t.pc = s.pc ∧
    t.dt.toNat = s.dt.toNat - k ∧ t.st.toNat = s.st.toNat - k ∧ UnchangedBut [] [.delay, .sound, .report] s t

/-- When the core has not faulted, PC is 2k below 0x1000 and every byte from PC to 0xFFF is 0, then the first k steps all
answer next states, leave every register and every byte of memory unchanged and bring PC to 0x1000, and the step after
them raises MemoryOutOfBounds(0x1000). The words 0x0000 are unrecognized (R68) and passed over (R85); the fault on the
fetch is the spec's decision D12. A run of core is steps alone, with no move of the host between them (log 14); the
report is the model's own field (log 2). [70_reset_and_hazards.md R235, 30_encoding.md R68, 40_step_cycle.md R82, R85,
92_eei_decisions.md D3, D12] -/
def Obligations.ZeroMemoryIsWalkedThroughToTheEnd : Prop :=
  ∀ (k : Nat) (s : State), s.fault = none → s.pc.toNat + 2 * k = 0x1000 →
    (∀ a, s.pc.toNat ≤ a → a < 0x1000 → Memory.readByte s.mem a = 0) →
    ∃ t, Host.Core.run core k s = .next t ∧ t.pc = 0x1000#16 ∧
      UnchangedBut [] [.delay, .sound, .report] s t ∧ step t = .fault (.memoryOutOfBounds 0x1000#16)
end

