-- ==== Sys2Proof/Laws/Decode.lean ====
section
/-! SUPPORT. The fields of a word of each format (R62, R63), and the bytes of a word (R43). -/

namespace Sys2Proof

/-! ## Format A -/

@[simp] theorem fieldOp_wordA (op : Nibble) (addr : Addr) : fieldOp (wordA op addr) = op := by
  apply BitVec.eq_of_getLsbD_eq
  intro i hi
  simp only [fieldOp, wordA, BitVec.getLsbD_extractLsb', BitVec.getLsbD_append]
  interval_cases i <;> simp

@[simp] theorem fieldAddr_wordA (op : Nibble) (addr : Addr) : fieldAddr (wordA op addr) = addr := by
  apply BitVec.eq_of_getLsbD_eq
  intro i hi
  simp only [fieldAddr, wordA, BitVec.getLsbD_extractLsb', BitVec.getLsbD_append]
  interval_cases i <;> simp

/-! ## Formats XK and X -/

@[simp] theorem fieldOp_wordXK (op : Nibble) (x : Reg) (kk : Byte) : fieldOp (wordXK op x kk) = op := by
  apply BitVec.eq_of_getLsbD_eq
  intro i hi
  simp only [fieldOp, wordXK, BitVec.getLsbD_extractLsb', BitVec.getLsbD_append]
  interval_cases i <;> simp

theorem fieldN1_wordXK (op : Nibble) (x : Reg) (kk : Byte) : fieldN1 (wordXK op x kk) = BitVec.ofFin x := by
  apply BitVec.eq_of_getLsbD_eq
  intro i hi
  simp only [fieldN1, wordXK, BitVec.getLsbD_extractLsb', BitVec.getLsbD_append]
  interval_cases i <;> simp

@[simp] theorem fieldX_wordXK (op : Nibble) (x : Reg) (kk : Byte) : fieldX (wordXK op x kk) = x := by
  rw [fieldX, fieldN1_wordXK]

@[simp] theorem fieldKK_wordXK (op : Nibble) (x : Reg) (kk : Byte) : fieldKK (wordXK op x kk) = kk := by
  apply BitVec.eq_of_getLsbD_eq
  intro i hi
  simp only [fieldKK, wordXK, BitVec.getLsbD_extractLsb', BitVec.getLsbD_append]
  interval_cases i <;> simp

/-- Format X is format XK with the minor opcode as its byte. -/
@[simp] theorem wordX_eq_wordXK (op : Nibble) (x : Reg) (fn8 : Byte) : wordX op x fn8 = wordXK op x fn8 := rfl

/-! ## Formats XY and XYN -/

@[simp] theorem fieldOp_wordXYN (op : Nibble) (x y : Reg) (n : Nibble) : fieldOp (wordXYN op x y n) = op := by
  apply BitVec.eq_of_getLsbD_eq
  intro i hi
  simp only [fieldOp, wordXYN, BitVec.getLsbD_extractLsb', BitVec.getLsbD_append]
  interval_cases i <;> simp

theorem fieldN1_wordXYN (op : Nibble) (x y : Reg) (n : Nibble) : fieldN1 (wordXYN op x y n) = BitVec.ofFin x := by
  apply BitVec.eq_of_getLsbD_eq
  intro i hi
  simp only [fieldN1, wordXYN, BitVec.getLsbD_extractLsb', BitVec.getLsbD_append]
  interval_cases i <;> simp

theorem fieldN2_wordXYN (op : Nibble) (x y : Reg) (n : Nibble) : fieldN2 (wordXYN op x y n) = BitVec.ofFin y := by
  apply BitVec.eq_of_getLsbD_eq
  intro i hi
  simp only [fieldN2, wordXYN, BitVec.getLsbD_extractLsb', BitVec.getLsbD_append]
  interval_cases i <;> simp

@[simp] theorem fieldN3_wordXYN (op : Nibble) (x y : Reg) (n : Nibble) : fieldN3 (wordXYN op x y n) = n := by
  apply BitVec.eq_of_getLsbD_eq
  intro i hi
  simp only [fieldN3, wordXYN, BitVec.getLsbD_extractLsb', BitVec.getLsbD_append]
  interval_cases i <;> simp

@[simp] theorem fieldX_wordXYN (op : Nibble) (x y : Reg) (n : Nibble) : fieldX (wordXYN op x y n) = x := by
  rw [fieldX, fieldN1_wordXYN]

@[simp] theorem fieldY_wordXYN (op : Nibble) (x y : Reg) (n : Nibble) : fieldY (wordXYN op x y n) = y := by
  rw [fieldY, fieldN2_wordXYN]

@[simp] theorem fieldN_wordXYN (op : Nibble) (x y : Reg) (n : Nibble) : fieldN (wordXYN op x y n) = n.toFin := by
  rw [fieldN, fieldN3_wordXYN]

/-! ## A word from its fields -/

/-- A word is its major opcode and its address. -/
theorem wordA_fields (w : Word) : wordA (fieldOp w) (fieldAddr w) = w := by
  apply BitVec.eq_of_getLsbD_eq
  intro i hi
  simp only [wordA, fieldOp, fieldAddr, BitVec.getLsbD_extractLsb', BitVec.getLsbD_append]
  interval_cases i <;> simp

/-- A word is its major opcode, its `x` and its byte. -/
theorem wordXK_fields (w : Word) : wordXK (fieldOp w) (fieldX w) (fieldKK w) = w := by
  apply BitVec.eq_of_getLsbD_eq
  intro i hi
  simp only [wordXK, fieldOp, fieldX, fieldN1, fieldKK, BitVec.ofFin_toFin, BitVec.getLsbD_extractLsb',
    BitVec.getLsbD_append]
  interval_cases i <;> simp

/-- A word is its four nibbles. -/
theorem wordXYN_fields (w : Word) : wordXYN (fieldOp w) (fieldX w) (fieldY w) (fieldN3 w) = w := by
  apply BitVec.eq_of_getLsbD_eq
  intro i hi
  simp only [wordXYN, fieldOp, fieldX, fieldN1, fieldY, fieldN2, fieldN3, BitVec.ofFin_toFin,
    BitVec.getLsbD_extractLsb', BitVec.getLsbD_append]
  interval_cases i <;> simp

/-! ## Bytes of a word (R43) -/

@[simp] theorem wordOfBytes_bytes (w : Word) : wordOfBytes (highByte w) (lowByte w) = w := by
  apply BitVec.eq_of_getLsbD_eq
  intro i hi
  simp only [wordOfBytes, highByte, lowByte, BitVec.getLsbD_extractLsb', BitVec.getLsbD_append]
  interval_cases i <;> simp

/-- Decoding reads the word of the first two bytes. -/
theorem decode_bytes (w : Word) (rest : List Byte) :
    decode (highByte w :: lowByte w :: rest) = (decodeWord w).map fun i => (i, rest) := by
  simp [decode]

end Sys2Proof
end

