-- ==== Sys2Proof/Laws/Display.lean ====
section
/-! SUPPORT. What the drawing operations do to each pixel and to the collision flag (R151, R152). -/

namespace Sys2Proof.Machine

theorem Display.pixel_toggle (d : Display) (x X : Fin 64) (y Y : Fin 32) :
    Display.pixel (Display.toggle d x y) X Y =
      (if X = x ∧ Y = y then !(Display.pixel d X Y) else Display.pixel d X Y) := by
  simp only [Display.pixel, Display.toggle, Vector.get_eq_getElem, Vector.getElem_set]
  by_cases hy : Y = y
  · subst hy
    by_cases hx : X = x
    · subst hx; simp
    · have : ¬ x.val = X.val := fun h => hx (Fin.ext h.symm)
      simp [hx, this]
  · have : ¬ y.val = Y.val := fun h => hy (Fin.ext h.symm)
    simp [hy, this]

@[simp] theorem Display.pixel_blank (X : Fin 64) (Y : Fin 32) : Display.pixel Display.blank X Y = false := by
  simp [Display.pixel, Display.blank, Vector.get_eq_getElem]

/-- The places and bits of a sprite's rows from row `r` on, in the order they are drawn. -/
def spriteBits (px py : Byte) (r : Nat) : List Byte → List (Fin 64 × Fin 32 × Bool)
  | [] => []
  | b :: bs =>
    (List.range 8).map (fun c => (wrapColumn px c, wrapRow py r, spriteBit b c)) ++ spriteBits px py (r + 1) bs

/-- Drawing rows is drawing their bits one after the other. -/
theorem drawRows_eq_foldl (px py : Byte) (r : Nat) (bs : List Byte) (p : Display × Bool) :
    drawRows px py r bs p = (spriteBits px py r bs).foldl (fun p o => drawBit o.1 o.2.1 o.2.2 p) p := by
  induction bs generalizing r p with
  | nil => rfl
  | cons b bs ih => simp [drawRows, spriteBits, List.foldl_append, List.foldl_map, ih, drawRow]

/-- Drawing bits at places that are all different: each pixel is toggled by a bit 1 there, and the flag is set by a
bit 1 on a pixel that was lit before. -/
theorem foldl_drawBit (os : List (Fin 64 × Fin 32 × Bool)) (p : Display × Bool)
    (h : os.Pairwise fun o q => (o.1, o.2.1) ≠ (q.1, q.2.1)) :
    (∀ X Y, Display.pixel (os.foldl (fun p o => drawBit o.1 o.2.1 o.2.2 p) p).1 X Y =
      (Display.pixel p.1 X Y ^^ decide ((X, Y, true) ∈ os))) ∧
    ((os.foldl (fun p o => drawBit o.1 o.2.1 o.2.2 p) p).2 =
      (p.2 || os.any fun o => o.2.2 && Display.pixel p.1 o.1 o.2.1)) := by
  induction os generalizing p with
  | nil => simp
  | cons o os ih =>
    obtain ⟨x, y, bit⟩ := o
    rw [List.pairwise_cons] at h
    obtain ⟨hpix, hcol⟩ := ih (drawBit x y bit p) h.2
    have hold : ∀ q ∈ os, Display.pixel (drawBit x y bit p).1 q.1 q.2.1 = Display.pixel p.1 q.1 q.2.1 := by
      intro q hq
      cases bit
      · rfl
      · simp only [drawBit, if_true]
        rw [Display.pixel_toggle, if_neg]
        rintro ⟨h1, h2⟩
        exact h.1 q hq (by simp [h1, h2])
    rw [List.foldl_cons]
    constructor
    · intro X Y
      rw [hpix]
      cases bit
      · simp [drawBit]
      · simp only [drawBit, if_true, Display.pixel_toggle]
        by_cases hxy : X = x ∧ Y = y
        · obtain ⟨rfl, rfl⟩ := hxy
          have : (X, Y, true) ∉ os := fun hm => h.1 _ hm rfl
          simp [this]
        · rw [if_neg hxy]
          have : (X, Y, true) ∈ (x, y, true) :: os ↔ (X, Y, true) ∈ os := by
            simp only [List.mem_cons, Prod.mk.injEq, and_true, or_iff_right_iff_imp]
            exact fun h' => absurd h' hxy
          simp only [this]
    · rw [hcol]
      have : (os.any fun o => o.2.2 && Display.pixel (drawBit x y bit p).1 o.1 o.2.1) =
          os.any fun o => o.2.2 && Display.pixel p.1 o.1 o.2.1 := by
        rw [Bool.eq_iff_iff, List.any_eq_true, List.any_eq_true]
        refine exists_congr fun q => and_congr_right fun hq => ?_
        rw [hold q hq]
      rw [this, List.any_cons]
      cases bit
      · simp [drawBit]
      · simp [drawBit, erasesPixel, Bool.or_assoc]

theorem mem_spriteBits (px py : Byte) (r : Nat) (bs : List Byte) (o : Fin 64 × Fin 32 × Bool) :
    o ∈ spriteBits px py r bs ↔ ∃ c k b, c < 8 ∧ bs[k]? = some b ∧
      o = (wrapColumn px c, wrapRow py (r + k), spriteBit b c) := by
  induction bs generalizing r with
  | nil => simp [spriteBits]
  | cons b bs ih =>
    simp only [spriteBits, List.mem_append, List.mem_map, List.mem_range, ih]
    constructor
    · rintro (⟨c, hc, rfl⟩ | ⟨c, k, b', hc, hk, rfl⟩)
      · exact ⟨c, 0, b, hc, by simp, by simp⟩
      · exact ⟨c, k + 1, b', hc, by simpa using hk, by simp [Nat.add_assoc, Nat.add_comm 1 k]⟩
    · rintro ⟨c, k, b', hc, hk, rfl⟩
      cases k with
      | zero => exact .inl ⟨c, hc, by simp at hk; simp [hk]⟩
      | succ k => exact .inr ⟨c, k, b', hc, by simpa using hk, by simp [Nat.add_assoc, Nat.add_comm 1 k]⟩

theorem wrapColumn_ne (px : Byte) {c d : Nat} (hc : c < 8) (hd : d < 8) (h : c ≠ d) : wrapColumn px c ≠ wrapColumn px d := by
  intro h'
  have := congrArg Fin.val h'
  simp only [wrapColumn] at this
  omega

theorem wrapRow_ne (py : Byte) {r k : Nat} (h : r < k) (hk : k < r + 32) : wrapRow py r ≠ wrapRow py k := by
  intro h'
  have := congrArg Fin.val h'
  simp only [wrapRow] at this
  omega

/-- The places of a sprite of at most 32 rows are all different (R151, corner case b). -/
theorem spriteBits_pairwise (px py : Byte) (r : Nat) (bs : List Byte) (hb : bs.length ≤ 32) :
    (spriteBits px py r bs).Pairwise fun o q => (o.1, o.2.1) ≠ (q.1, q.2.1) := by
  induction bs generalizing r with
  | nil => simp [spriteBits]
  | cons b bs ih =>
    rw [List.length_cons] at hb
    rw [spriteBits, List.pairwise_append]
    refine ⟨?_, ih (r + 1) (by omega), ?_⟩
    · rw [List.pairwise_map]
      refine List.Pairwise.imp_of_mem ?_ List.pairwise_lt_range
      intro c d hc hd hcd h
      rw [List.mem_range] at hc hd
      exact wrapColumn_ne px hc hd (by omega) (Prod.mk.inj h).1
    · intro o ho q hq
      obtain ⟨c, hc, rfl⟩ := List.mem_map.mp ho
      obtain ⟨d, k, b', hd, hk, rfl⟩ := (mem_spriteBits ..).mp hq
      intro h
      have hkl : k < bs.length := (List.getElem?_eq_some_iff.mp hk).1
      exact wrapRow_ne py (by omega) (by omega) (Prod.mk.inj h).2

/-- Everything `drawRows` can do to the display and the flag (R151). -/
theorem drawRows_spec (px py : Byte) (bs : List Byte) (p : Display × Bool) (hb : bs.length ≤ 32) :
    (∀ X Y, Display.pixel (drawRows px py 0 bs p).1 X Y =
      (Display.pixel p.1 X Y ^^ decide ((X, Y, true) ∈ spriteBits px py 0 bs))) ∧
    ((drawRows px py 0 bs p).2 = true ↔
      p.2 = true ∨ ∃ X Y, (X, Y, true) ∈ spriteBits px py 0 bs ∧ Display.pixel p.1 X Y = true) := by
  rw [drawRows_eq_foldl]
  obtain ⟨h1, h2⟩ := foldl_drawBit (spriteBits px py 0 bs) p (spriteBits_pairwise px py 0 bs hb)
  refine ⟨h1, ?_⟩
  rw [h2, Bool.or_eq_true, List.any_eq_true]
  refine or_congr_right ⟨?_, ?_⟩
  · rintro ⟨⟨X, Y, bit⟩, hm, hlit⟩
    rw [Bool.and_eq_true] at hlit
    obtain ⟨rfl, hp⟩ := hlit
    exact ⟨X, Y, hm, hp⟩
  · rintro ⟨X, Y, hm, hp⟩
    exact ⟨(X, Y, true), hm, by simp [hp]⟩

end Sys2Proof.Machine
end

