-- ==== Sys2Proof/Laws/Memory.lean ====
section
/-! SUPPORT. What the memory operations do: a byte after a write, the canonical form kept, blocks of bytes. -/

namespace Sys2Proof.Machine

/-! ## One byte -/

theorem Memory.readByte_erase (m : Memory) (a b : Nat) :
    Memory.readByte (Memory.erase m a) b = if b = a then Memory.initial b else Memory.readByte m b := by
  induction m with
  | nil => simp [Memory.erase, Memory.readByte]
  | cons c rest ih =>
    obtain ⟨k, v⟩ := c
    by_cases hk : k = a
    · subst hk
      by_cases hb : b = k
      · subst hb; simpa [Memory.erase] using ih
      · simp [Memory.erase, Memory.readByte, ih, hb, Ne.symm hb]
    · by_cases hb : k = b
      · subst hb; simp [Memory.erase, Memory.readByte, hk]
      · simp [Memory.erase, Memory.readByte, hk, hb, ih]

theorem Memory.readByte_insert (m : Memory) (a b : Nat) (v : Byte) (h : ∀ c ∈ m, c.1 ≠ a) :
    Memory.readByte (Memory.insert m a v) b = if b = a then v else Memory.readByte m b := by
  induction m with
  | nil => simp [Memory.insert, Memory.readByte, eq_comm]
  | cons c rest ih =>
    obtain ⟨k, w⟩ := c
    have hk : k ≠ a := h (k, w) (by simp)
    have ih' := ih fun c hc => h c (by simp [hc])
    by_cases hlt : a < k
    · simp [Memory.insert, Memory.readByte, hlt, eq_comm]
    · by_cases hb : k = b
      · subst hb; simp [Memory.insert, Memory.readByte, hlt, hk]
      · simp [Memory.insert, Memory.readByte, hlt, hb, ih']

theorem Memory.not_mem_erase (m : Memory) (a : Nat) : ∀ c ∈ Memory.erase m a, c.1 ≠ a := by
  induction m with
  | nil => simp [Memory.erase]
  | cons c rest ih =>
    obtain ⟨k, w⟩ := c
    by_cases hk : k = a
    · simpa [Memory.erase, hk] using ih
    · simp only [Memory.erase, if_neg hk, List.mem_cons, forall_eq_or_imp]
      exact ⟨hk, ih⟩

/-- A byte after a write: the value written at its address, as before at every other, whatever list the memory is. -/
theorem Memory.readByte_writeByte (m : Memory) (a b : Nat) (v : Byte) :
    Memory.readByte (Memory.writeByte m a v) b = if b = a then v else Memory.readByte m b := by
  by_cases hv : v = Memory.initial a
  · rw [Memory.writeByte, if_pos hv, Memory.readByte_erase]
    by_cases hb : b = a
    · simp [hb, hv]
    · simp [hb]
  · rw [Memory.writeByte, if_neg hv, Memory.readByte_insert _ _ _ _ (Memory.not_mem_erase m a), Memory.readByte_erase]
    by_cases hb : b = a <;> simp [hb]

/-! ## The canonical form -/

theorem Memory.wf_iff (m : Memory) : Memory.wf m = true ↔
    m.Pairwise (fun c d => c.1 < d.1) ∧ ∀ c ∈ m, c.1 < Config.memSize ∧ c.2 ≠ Memory.initial c.1 := by
  simp [Memory.wf]

theorem Memory.erase_sublist (m : Memory) (a : Nat) : (Memory.erase m a).Sublist m := by
  induction m with
  | nil => simp [Memory.erase]
  | cons c rest ih =>
    obtain ⟨k, w⟩ := c
    by_cases hk : k = a
    · simpa [Memory.erase, hk] using ih.cons _
    · simpa [Memory.erase, hk] using ih

theorem Memory.erase_wf {m : Memory} (a : Nat) (h : Memory.wf m = true) : Memory.wf (Memory.erase m a) = true := by
  rw [Memory.wf_iff] at h ⊢
  exact ⟨h.1.sublist (Memory.erase_sublist m a), fun c hc => h.2 c ((Memory.erase_sublist m a).subset hc)⟩

theorem Memory.mem_insert (m : Memory) (a : Nat) (v : Byte) (c : Host.Cell) :
    c ∈ Memory.insert m a v ↔ c = (a, v) ∨ c ∈ m := by
  induction m with
  | nil => simp [Memory.insert]
  | cons d rest ih =>
    obtain ⟨k, w⟩ := d
    by_cases hlt : a < k
    · simp [Memory.insert, hlt]
    · simp only [Memory.insert, if_neg hlt, List.mem_cons, ih]; tauto

theorem Memory.insert_pairwise {m : Memory} {a : Nat} (v : Byte) (h : m.Pairwise fun c d => c.1 < d.1)
    (ha : ∀ c ∈ m, c.1 ≠ a) : (Memory.insert m a v).Pairwise fun c d => c.1 < d.1 := by
  induction m with
  | nil => simp [Memory.insert]
  | cons d rest ih =>
    obtain ⟨k, w⟩ := d
    have hk : k ≠ a := ha (k, w) (by simp)
    rw [List.pairwise_cons] at h
    by_cases hlt : a < k
    · simp only [Memory.insert, if_pos hlt, List.pairwise_cons]
      refine ⟨fun c hc => ?_, h.1, h.2⟩
      rcases List.mem_cons.mp hc with rfl | hc
      · exact hlt
      · exact hlt.trans (h.1 c hc)
    · simp only [Memory.insert, if_neg hlt, List.pairwise_cons]
      refine ⟨fun c hc => ?_, ih h.2 fun c hc => ha c (by simp [hc])⟩
      rcases (Memory.mem_insert _ _ _ _).mp hc with rfl | hc
      · show k < a; omega
      · exact h.1 c hc

/-- A write inside memory keeps the canonical form. -/
theorem Memory.writeByte_wf {m : Memory} {a : Nat} (v : Byte) (h : Memory.wf m = true) (ha : a < Config.memSize) :
    Memory.wf (Memory.writeByte m a v) = true := by
  by_cases hv : v = Memory.initial a
  · rw [Memory.writeByte, if_pos hv]; exact Memory.erase_wf a h
  · rw [Memory.writeByte, if_neg hv]
    have he := (Memory.wf_iff _).mp (Memory.erase_wf a h)
    refine (Memory.wf_iff _).mpr ⟨Memory.insert_pairwise v he.1 (Memory.not_mem_erase m a), fun c hc => ?_⟩
    rcases (Memory.mem_insert _ _ _ _).mp hc with rfl | hc
    · exact ⟨ha, hv⟩
    · exact he.2 c hc

/-- The memory at reset, in which nothing is listed, is canonical. -/
theorem Memory.wf_reset : Memory.wf State.reset.mem = true := by decide

/-! ## Blocks of bytes -/

/-- A byte after a block is written: the block's byte at its address, as before outside the block. -/
theorem Memory.readByte_writeBytes (m : Memory) (base a : Nat) (bs : List Byte) :
    Memory.readByte (Memory.writeBytes m base bs) a =
      if base ≤ a then bs[a - base]?.getD (Memory.readByte m a) else Memory.readByte m a := by
  induction bs generalizing m base with
  | nil => simp [Memory.writeBytes]
  | cons b bs ih =>
    rw [Memory.writeBytes, ih, Memory.readByte_writeByte]
    rcases Nat.lt_trichotomy a base with h | h | h
    · rw [if_neg (by omega), if_neg (by omega), if_neg (by omega)]
    · subst h; rw [if_neg (by omega), if_pos rfl, if_pos (le_refl _)]; simp
    · rw [if_pos (by omega), if_neg (by omega), if_pos (by omega)]
      have : a - base = (a - (base + 1)) + 1 := by omega
      rw [this, List.getElem?_cons_succ]

/-- Outside the block nothing changes. -/
theorem Memory.readByte_writeBytes_outside (m : Memory) (base a : Nat) (bs : List Byte)
    (h : a < base ∨ base + bs.length ≤ a) :
    Memory.readByte (Memory.writeBytes m base bs) a = Memory.readByte m a := by
  rw [Memory.readByte_writeBytes]
  split
  · rw [List.getElem?_eq_none (by omega), Option.getD_none]
  · rfl

/-- Writing a block inside memory keeps the canonical form. -/
theorem Memory.writeBytes_wf {m : Memory} (base : Nat) (bs : List Byte) (h : Memory.wf m = true)
    (hb : base + bs.length ≤ Config.memSize) : Memory.wf (Memory.writeBytes m base bs) = true := by
  induction bs generalizing m base with
  | nil => exact h
  | cons b bs ih =>
    rw [List.length_cons] at hb
    exact ih (base + 1) (Memory.writeByte_wf b h (by omega)) (by omega)

@[simp] theorem Memory.length_readBytes (m : Memory) (base count : Nat) :
    (Memory.readBytes m base count).length = count := by simp [Memory.readBytes]

theorem Memory.getElem?_readBytes (m : Memory) (base count k : Nat) (h : k < count) :
    (Memory.readBytes m base count)[k]? = some (Memory.readByte m (base + k)) := by
  simp [Memory.readBytes, h]

/-- When a block access is in bounds (R46). -/
theorem accessInBounds_iff (base count : Nat) :
    accessInBounds base count = true ↔ count = 0 ∨ base + (count - 1) ≤ 0xFFF := by
  simp only [accessInBounds, Bool.or_eq_true, decide_eq_true_eq]
  simp only [Config.memSize]
  omega

end Sys2Proof.Machine
end

