-- ==== Sys2Proof/Laws/State.lean ====
section
/-! SUPPORT. One lemma per field per named update of the state, true by rfl, and what a register reads after each. -/

namespace Sys2Proof.Machine

/-! ## Fields after an update -/

@[simp] theorem State.writeReg_v (s : State) (x : Reg) (b : Byte) : (s.writeReg x b).v = s.v.set x.val b x.isLt := rfl
@[simp] theorem State.writeReg_i (s : State) (x : Reg) (b : Byte) : (s.writeReg x b).i = s.i := rfl
@[simp] theorem State.writeReg_pc (s : State) (x : Reg) (b : Byte) : (s.writeReg x b).pc = s.pc := rfl
@[simp] theorem State.writeReg_sp (s : State) (x : Reg) (b : Byte) : (s.writeReg x b).sp = s.sp := rfl
@[simp] theorem State.writeReg_stack (s : State) (x : Reg) (b : Byte) : (s.writeReg x b).stack = s.stack := rfl
@[simp] theorem State.writeReg_dt (s : State) (x : Reg) (b : Byte) : (s.writeReg x b).dt = s.dt := rfl
@[simp] theorem State.writeReg_st (s : State) (x : Reg) (b : Byte) : (s.writeReg x b).st = s.st := rfl
@[simp] theorem State.writeReg_mem (s : State) (x : Reg) (b : Byte) : (s.writeReg x b).mem = s.mem := rfl
@[simp] theorem State.writeReg_disp (s : State) (x : Reg) (b : Byte) : (s.writeReg x b).disp = s.disp := rfl
@[simp] theorem State.writeReg_key (s : State) (x : Reg) (b : Byte) : (s.writeReg x b).key = s.key := rfl
@[simp] theorem State.writeReg_fault (s : State) (x : Reg) (b : Byte) : (s.writeReg x b).fault = s.fault := rfl
@[simp] theorem State.writeReg_diag (s : State) (x : Reg) (b : Byte) : (s.writeReg x b).diag = s.diag := rfl
@[simp] theorem State.writeReg_draws (s : State) (x : Reg) (b : Byte) : (s.writeReg x b).draws = s.draws := rfl

@[simp] theorem State.setI_v (s : State) (a : Word) : (s.setI a).v = s.v := rfl
@[simp] theorem State.setI_i (s : State) (a : Word) : (s.setI a).i = a := rfl
@[simp] theorem State.setI_pc (s : State) (a : Word) : (s.setI a).pc = s.pc := rfl
@[simp] theorem State.setI_sp (s : State) (a : Word) : (s.setI a).sp = s.sp := rfl
@[simp] theorem State.setI_stack (s : State) (a : Word) : (s.setI a).stack = s.stack := rfl
@[simp] theorem State.setI_dt (s : State) (a : Word) : (s.setI a).dt = s.dt := rfl
@[simp] theorem State.setI_st (s : State) (a : Word) : (s.setI a).st = s.st := rfl
@[simp] theorem State.setI_mem (s : State) (a : Word) : (s.setI a).mem = s.mem := rfl
@[simp] theorem State.setI_disp (s : State) (a : Word) : (s.setI a).disp = s.disp := rfl
@[simp] theorem State.setI_key (s : State) (a : Word) : (s.setI a).key = s.key := rfl
@[simp] theorem State.setI_fault (s : State) (a : Word) : (s.setI a).fault = s.fault := rfl
@[simp] theorem State.setI_diag (s : State) (a : Word) : (s.setI a).diag = s.diag := rfl
@[simp] theorem State.setI_draws (s : State) (a : Word) : (s.setI a).draws = s.draws := rfl

@[simp] theorem State.setDT_v (s : State) (b : Byte) : (s.setDT b).v = s.v := rfl
@[simp] theorem State.setDT_i (s : State) (b : Byte) : (s.setDT b).i = s.i := rfl
@[simp] theorem State.setDT_pc (s : State) (b : Byte) : (s.setDT b).pc = s.pc := rfl
@[simp] theorem State.setDT_sp (s : State) (b : Byte) : (s.setDT b).sp = s.sp := rfl
@[simp] theorem State.setDT_stack (s : State) (b : Byte) : (s.setDT b).stack = s.stack := rfl
@[simp] theorem State.setDT_dt (s : State) (b : Byte) : (s.setDT b).dt = b := rfl
@[simp] theorem State.setDT_st (s : State) (b : Byte) : (s.setDT b).st = s.st := rfl
@[simp] theorem State.setDT_mem (s : State) (b : Byte) : (s.setDT b).mem = s.mem := rfl
@[simp] theorem State.setDT_disp (s : State) (b : Byte) : (s.setDT b).disp = s.disp := rfl
@[simp] theorem State.setDT_key (s : State) (b : Byte) : (s.setDT b).key = s.key := rfl
@[simp] theorem State.setDT_fault (s : State) (b : Byte) : (s.setDT b).fault = s.fault := rfl
@[simp] theorem State.setDT_diag (s : State) (b : Byte) : (s.setDT b).diag = s.diag := rfl
@[simp] theorem State.setDT_draws (s : State) (b : Byte) : (s.setDT b).draws = s.draws := rfl

@[simp] theorem State.setST_v (s : State) (b : Byte) : (s.setST b).v = s.v := rfl
@[simp] theorem State.setST_i (s : State) (b : Byte) : (s.setST b).i = s.i := rfl
@[simp] theorem State.setST_pc (s : State) (b : Byte) : (s.setST b).pc = s.pc := rfl
@[simp] theorem State.setST_sp (s : State) (b : Byte) : (s.setST b).sp = s.sp := rfl
@[simp] theorem State.setST_stack (s : State) (b : Byte) : (s.setST b).stack = s.stack := rfl
@[simp] theorem State.setST_dt (s : State) (b : Byte) : (s.setST b).dt = s.dt := rfl
@[simp] theorem State.setST_st (s : State) (b : Byte) : (s.setST b).st = b := rfl
@[simp] theorem State.setST_mem (s : State) (b : Byte) : (s.setST b).mem = s.mem := rfl
@[simp] theorem State.setST_disp (s : State) (b : Byte) : (s.setST b).disp = s.disp := rfl
@[simp] theorem State.setST_key (s : State) (b : Byte) : (s.setST b).key = s.key := rfl
@[simp] theorem State.setST_fault (s : State) (b : Byte) : (s.setST b).fault = s.fault := rfl
@[simp] theorem State.setST_diag (s : State) (b : Byte) : (s.setST b).diag = s.diag := rfl
@[simp] theorem State.setST_draws (s : State) (b : Byte) : (s.setST b).draws = s.draws := rfl

@[simp] theorem State.setMem_v (s : State) (m : Memory) : (s.setMem m).v = s.v := rfl
@[simp] theorem State.setMem_i (s : State) (m : Memory) : (s.setMem m).i = s.i := rfl
@[simp] theorem State.setMem_pc (s : State) (m : Memory) : (s.setMem m).pc = s.pc := rfl
@[simp] theorem State.setMem_sp (s : State) (m : Memory) : (s.setMem m).sp = s.sp := rfl
@[simp] theorem State.setMem_stack (s : State) (m : Memory) : (s.setMem m).stack = s.stack := rfl
@[simp] theorem State.setMem_dt (s : State) (m : Memory) : (s.setMem m).dt = s.dt := rfl
@[simp] theorem State.setMem_st (s : State) (m : Memory) : (s.setMem m).st = s.st := rfl
@[simp] theorem State.setMem_mem (s : State) (m : Memory) : (s.setMem m).mem = m := rfl
@[simp] theorem State.setMem_disp (s : State) (m : Memory) : (s.setMem m).disp = s.disp := rfl
@[simp] theorem State.setMem_key (s : State) (m : Memory) : (s.setMem m).key = s.key := rfl
@[simp] theorem State.setMem_fault (s : State) (m : Memory) : (s.setMem m).fault = s.fault := rfl
@[simp] theorem State.setMem_diag (s : State) (m : Memory) : (s.setMem m).diag = s.diag := rfl
@[simp] theorem State.setMem_draws (s : State) (m : Memory) : (s.setMem m).draws = s.draws := rfl

@[simp] theorem State.setDisp_v (s : State) (d : Display) : (s.setDisp d).v = s.v := rfl
@[simp] theorem State.setDisp_i (s : State) (d : Display) : (s.setDisp d).i = s.i := rfl
@[simp] theorem State.setDisp_pc (s : State) (d : Display) : (s.setDisp d).pc = s.pc := rfl
@[simp] theorem State.setDisp_sp (s : State) (d : Display) : (s.setDisp d).sp = s.sp := rfl
@[simp] theorem State.setDisp_stack (s : State) (d : Display) : (s.setDisp d).stack = s.stack := rfl
@[simp] theorem State.setDisp_dt (s : State) (d : Display) : (s.setDisp d).dt = s.dt := rfl
@[simp] theorem State.setDisp_st (s : State) (d : Display) : (s.setDisp d).st = s.st := rfl
@[simp] theorem State.setDisp_mem (s : State) (d : Display) : (s.setDisp d).mem = s.mem := rfl
@[simp] theorem State.setDisp_disp (s : State) (d : Display) : (s.setDisp d).disp = d := rfl
@[simp] theorem State.setDisp_key (s : State) (d : Display) : (s.setDisp d).key = s.key := rfl
@[simp] theorem State.setDisp_fault (s : State) (d : Display) : (s.setDisp d).fault = s.fault := rfl
@[simp] theorem State.setDisp_diag (s : State) (d : Display) : (s.setDisp d).diag = s.diag := rfl
@[simp] theorem State.setDisp_draws (s : State) (d : Display) : (s.setDisp d).draws = s.draws := rfl

@[simp] theorem State.setDiag_v (s : State) (d : Diagnostic) : (s.setDiag d).v = s.v := rfl
@[simp] theorem State.setDiag_i (s : State) (d : Diagnostic) : (s.setDiag d).i = s.i := rfl
@[simp] theorem State.setDiag_pc (s : State) (d : Diagnostic) : (s.setDiag d).pc = s.pc := rfl
@[simp] theorem State.setDiag_sp (s : State) (d : Diagnostic) : (s.setDiag d).sp = s.sp := rfl
@[simp] theorem State.setDiag_stack (s : State) (d : Diagnostic) : (s.setDiag d).stack = s.stack := rfl
@[simp] theorem State.setDiag_dt (s : State) (d : Diagnostic) : (s.setDiag d).dt = s.dt := rfl
@[simp] theorem State.setDiag_st (s : State) (d : Diagnostic) : (s.setDiag d).st = s.st := rfl
@[simp] theorem State.setDiag_mem (s : State) (d : Diagnostic) : (s.setDiag d).mem = s.mem := rfl
@[simp] theorem State.setDiag_disp (s : State) (d : Diagnostic) : (s.setDiag d).disp = s.disp := rfl
@[simp] theorem State.setDiag_key (s : State) (d : Diagnostic) : (s.setDiag d).key = s.key := rfl
@[simp] theorem State.setDiag_fault (s : State) (d : Diagnostic) : (s.setDiag d).fault = s.fault := rfl
@[simp] theorem State.setDiag_diag (s : State) (d : Diagnostic) : (s.setDiag d).diag = some d := rfl
@[simp] theorem State.setDiag_draws (s : State) (d : Diagnostic) : (s.setDiag d).draws = s.draws := rfl

@[simp] theorem State.countDraw_v (s : State) : (s.countDraw).v = s.v := rfl
@[simp] theorem State.countDraw_i (s : State) : (s.countDraw).i = s.i := rfl
@[simp] theorem State.countDraw_pc (s : State) : (s.countDraw).pc = s.pc := rfl
@[simp] theorem State.countDraw_sp (s : State) : (s.countDraw).sp = s.sp := rfl
@[simp] theorem State.countDraw_stack (s : State) : (s.countDraw).stack = s.stack := rfl
@[simp] theorem State.countDraw_dt (s : State) : (s.countDraw).dt = s.dt := rfl
@[simp] theorem State.countDraw_st (s : State) : (s.countDraw).st = s.st := rfl
@[simp] theorem State.countDraw_mem (s : State) : (s.countDraw).mem = s.mem := rfl
@[simp] theorem State.countDraw_disp (s : State) : (s.countDraw).disp = s.disp := rfl
@[simp] theorem State.countDraw_key (s : State) : (s.countDraw).key = s.key := rfl
@[simp] theorem State.countDraw_fault (s : State) : (s.countDraw).fault = s.fault := rfl
@[simp] theorem State.countDraw_diag (s : State) : (s.countDraw).diag = s.diag := rfl
@[simp] theorem State.countDraw_draws (s : State) : (s.countDraw).draws = s.draws + 1 := rfl

@[simp] theorem State.setPC_v (s : State) (p : Word) : (s.setPC p).v = s.v := rfl
@[simp] theorem State.setPC_i (s : State) (p : Word) : (s.setPC p).i = s.i := rfl
@[simp] theorem State.setPC_pc (s : State) (p : Word) : (s.setPC p).pc = p := rfl
@[simp] theorem State.setPC_sp (s : State) (p : Word) : (s.setPC p).sp = s.sp := rfl
@[simp] theorem State.setPC_stack (s : State) (p : Word) : (s.setPC p).stack = s.stack := rfl
@[simp] theorem State.setPC_dt (s : State) (p : Word) : (s.setPC p).dt = s.dt := rfl
@[simp] theorem State.setPC_st (s : State) (p : Word) : (s.setPC p).st = s.st := rfl
@[simp] theorem State.setPC_mem (s : State) (p : Word) : (s.setPC p).mem = s.mem := rfl
@[simp] theorem State.setPC_disp (s : State) (p : Word) : (s.setPC p).disp = s.disp := rfl
@[simp] theorem State.setPC_key (s : State) (p : Word) : (s.setPC p).key = s.key := rfl
@[simp] theorem State.setPC_fault (s : State) (p : Word) : (s.setPC p).fault = s.fault := rfl
@[simp] theorem State.setPC_diag (s : State) (p : Word) : (s.setPC p).diag = s.diag := rfl
@[simp] theorem State.setPC_draws (s : State) (p : Word) : (s.setPC p).draws = s.draws := rfl

@[simp] theorem State.advance_v (s : State) : (s.advance).v = s.v := rfl
@[simp] theorem State.advance_i (s : State) : (s.advance).i = s.i := rfl
@[simp] theorem State.advance_pc (s : State) : (s.advance).pc = s.pc + 2 := rfl
@[simp] theorem State.advance_sp (s : State) : (s.advance).sp = s.sp := rfl
@[simp] theorem State.advance_stack (s : State) : (s.advance).stack = s.stack := rfl
@[simp] theorem State.advance_dt (s : State) : (s.advance).dt = s.dt := rfl
@[simp] theorem State.advance_st (s : State) : (s.advance).st = s.st := rfl
@[simp] theorem State.advance_mem (s : State) : (s.advance).mem = s.mem := rfl
@[simp] theorem State.advance_disp (s : State) : (s.advance).disp = s.disp := rfl
@[simp] theorem State.advance_key (s : State) : (s.advance).key = s.key := rfl
@[simp] theorem State.advance_fault (s : State) : (s.advance).fault = s.fault := rfl
@[simp] theorem State.advance_diag (s : State) : (s.advance).diag = s.diag := rfl
@[simp] theorem State.advance_draws (s : State) : (s.advance).draws = s.draws := rfl

@[simp] theorem State.skipNext_v (s : State) : (s.skipNext).v = s.v := rfl
@[simp] theorem State.skipNext_i (s : State) : (s.skipNext).i = s.i := rfl
@[simp] theorem State.skipNext_pc (s : State) : (s.skipNext).pc = s.pc + 4 := rfl
@[simp] theorem State.skipNext_sp (s : State) : (s.skipNext).sp = s.sp := rfl
@[simp] theorem State.skipNext_stack (s : State) : (s.skipNext).stack = s.stack := rfl
@[simp] theorem State.skipNext_dt (s : State) : (s.skipNext).dt = s.dt := rfl
@[simp] theorem State.skipNext_st (s : State) : (s.skipNext).st = s.st := rfl
@[simp] theorem State.skipNext_mem (s : State) : (s.skipNext).mem = s.mem := rfl
@[simp] theorem State.skipNext_disp (s : State) : (s.skipNext).disp = s.disp := rfl
@[simp] theorem State.skipNext_key (s : State) : (s.skipNext).key = s.key := rfl
@[simp] theorem State.skipNext_fault (s : State) : (s.skipNext).fault = s.fault := rfl
@[simp] theorem State.skipNext_diag (s : State) : (s.skipNext).diag = s.diag := rfl
@[simp] theorem State.skipNext_draws (s : State) : (s.skipNext).draws = s.draws := rfl

@[simp] theorem State.beginStep_v (s : State) : (s.beginStep).v = s.v := rfl
@[simp] theorem State.beginStep_i (s : State) : (s.beginStep).i = s.i := rfl
@[simp] theorem State.beginStep_pc (s : State) : (s.beginStep).pc = s.pc := rfl
@[simp] theorem State.beginStep_sp (s : State) : (s.beginStep).sp = s.sp := rfl
@[simp] theorem State.beginStep_stack (s : State) : (s.beginStep).stack = s.stack := rfl
@[simp] theorem State.beginStep_dt (s : State) : (s.beginStep).dt = tickTimer s.dt := rfl
@[simp] theorem State.beginStep_st (s : State) : (s.beginStep).st = tickTimer s.st := rfl
@[simp] theorem State.beginStep_mem (s : State) : (s.beginStep).mem = s.mem := rfl
@[simp] theorem State.beginStep_disp (s : State) : (s.beginStep).disp = s.disp := rfl
@[simp] theorem State.beginStep_key (s : State) : (s.beginStep).key = s.key := rfl
@[simp] theorem State.beginStep_fault (s : State) : (s.beginStep).fault = s.fault := rfl
@[simp] theorem State.beginStep_diag (s : State) : (s.beginStep).diag = none := rfl
@[simp] theorem State.beginStep_draws (s : State) : (s.beginStep).draws = s.draws := rfl

@[simp] theorem State.skipIf_v (c : Bool) (s : State) : (s.skipIf c).v = s.v := by cases c <;> rfl
@[simp] theorem State.skipIf_i (c : Bool) (s : State) : (s.skipIf c).i = s.i := by cases c <;> rfl
@[simp] theorem State.skipIf_pc (c : Bool) (s : State) : (s.skipIf c).pc = if c then s.pc + 4 else s.pc + 2 := by
  cases c <;> rfl
@[simp] theorem State.skipIf_sp (c : Bool) (s : State) : (s.skipIf c).sp = s.sp := by cases c <;> rfl
@[simp] theorem State.skipIf_stack (c : Bool) (s : State) : (s.skipIf c).stack = s.stack := by cases c <;> rfl
@[simp] theorem State.skipIf_dt (c : Bool) (s : State) : (s.skipIf c).dt = s.dt := by cases c <;> rfl
@[simp] theorem State.skipIf_st (c : Bool) (s : State) : (s.skipIf c).st = s.st := by cases c <;> rfl
@[simp] theorem State.skipIf_mem (c : Bool) (s : State) : (s.skipIf c).mem = s.mem := by cases c <;> rfl
@[simp] theorem State.skipIf_disp (c : Bool) (s : State) : (s.skipIf c).disp = s.disp := by cases c <;> rfl
@[simp] theorem State.skipIf_key (c : Bool) (s : State) : (s.skipIf c).key = s.key := by cases c <;> rfl
@[simp] theorem State.skipIf_fault (c : Bool) (s : State) : (s.skipIf c).fault = s.fault := by cases c <;> rfl
@[simp] theorem State.skipIf_diag (c : Bool) (s : State) : (s.skipIf c).diag = s.diag := by cases c <;> rfl
@[simp] theorem State.skipIf_draws (c : Bool) (s : State) : (s.skipIf c).draws = s.draws := by cases c <;> rfl

/-! ## Registers after an update -/

@[simp] theorem State.readReg_setI (s : State) (a : Word) (y : Reg) : (s.setI a).readReg y = s.readReg y := rfl
@[simp] theorem State.readReg_setDT (s : State) (b : Byte) (y : Reg) : (s.setDT b).readReg y = s.readReg y := rfl
@[simp] theorem State.readReg_setST (s : State) (b : Byte) (y : Reg) : (s.setST b).readReg y = s.readReg y := rfl
@[simp] theorem State.readReg_setMem (s : State) (m : Memory) (y : Reg) : (s.setMem m).readReg y = s.readReg y := rfl
@[simp] theorem State.readReg_setDisp (s : State) (d : Display) (y : Reg) : (s.setDisp d).readReg y = s.readReg y := rfl
@[simp] theorem State.readReg_setDiag (s : State) (d : Diagnostic) (y : Reg) : (s.setDiag d).readReg y = s.readReg y := rfl
@[simp] theorem State.readReg_countDraw (s : State) (y : Reg) : (s.countDraw).readReg y = s.readReg y := rfl
@[simp] theorem State.readReg_setPC (s : State) (p : Word) (y : Reg) : (s.setPC p).readReg y = s.readReg y := rfl
@[simp] theorem State.readReg_advance (s : State) (y : Reg) : (s.advance).readReg y = s.readReg y := rfl
@[simp] theorem State.readReg_skipNext (s : State) (y : Reg) : (s.skipNext).readReg y = s.readReg y := rfl
@[simp] theorem State.readReg_beginStep (s : State) (y : Reg) : (s.beginStep).readReg y = s.readReg y := rfl
@[simp] theorem State.readReg_skipIf (c : Bool) (s : State) (y : Reg) : (s.skipIf c).readReg y = s.readReg y := by
  cases c <;> rfl

/-- A register after a write: the value written, or as before (R8). -/
theorem State.readReg_writeReg (s : State) (x y : Reg) (b : Byte) :
    (s.writeReg x b).readReg y = if y = x then b else s.readReg y := by
  simp only [State.readReg, State.writeReg, Vector.get_eq_getElem, Vector.getElem_set]
  by_cases h : y = x
  · subst h; simp
  · rw [if_neg (fun h' => h (Fin.ext h'.symm)), if_neg h]

@[simp] theorem State.readReg_writeReg_same (s : State) (x : Reg) (b : Byte) : (s.writeReg x b).readReg x = b := by
  simp [State.readReg_writeReg]

theorem State.readReg_writeReg_other (s : State) {x y : Reg} (b : Byte) (h : y ≠ x) :
    (s.writeReg x b).readReg y = s.readReg y := by simp [State.readReg_writeReg, h]

/-- VF after a flag write, and every other register (R11). -/
theorem State.readReg_writeVF (s : State) (f : Bool) (y : Reg) :
    (s.writeVF f).readReg y = if y = vfIndex then flagByte f else s.readReg y := s.readReg_writeReg _ _ _

@[simp] theorem State.writeVF_i (s : State) (f : Bool) : (s.writeVF f).i = s.i := rfl
@[simp] theorem State.writeVF_pc (s : State) (f : Bool) : (s.writeVF f).pc = s.pc := rfl
@[simp] theorem State.writeVF_sp (s : State) (f : Bool) : (s.writeVF f).sp = s.sp := rfl
@[simp] theorem State.writeVF_stack (s : State) (f : Bool) : (s.writeVF f).stack = s.stack := rfl
@[simp] theorem State.writeVF_dt (s : State) (f : Bool) : (s.writeVF f).dt = s.dt := rfl
@[simp] theorem State.writeVF_st (s : State) (f : Bool) : (s.writeVF f).st = s.st := rfl
@[simp] theorem State.writeVF_mem (s : State) (f : Bool) : (s.writeVF f).mem = s.mem := rfl
@[simp] theorem State.writeVF_disp (s : State) (f : Bool) : (s.writeVF f).disp = s.disp := rfl
@[simp] theorem State.writeVF_key (s : State) (f : Bool) : (s.writeVF f).key = s.key := rfl
@[simp] theorem State.writeVF_fault (s : State) (f : Bool) : (s.writeVF f).fault = s.fault := rfl
@[simp] theorem State.writeVF_diag (s : State) (f : Bool) : (s.writeVF f).diag = s.diag := rfl
@[simp] theorem State.writeVF_draws (s : State) (f : Bool) : (s.writeVF f).draws = s.draws := rfl

end Sys2Proof.Machine
end

