-- ==== Sys2Proof/Laws/Ops.lean ====
section
/-! SUPPORT. One lemma for each shared operation that can stop or choose: everything it can do, said once. -/

namespace Sys2Proof.Machine

/-- A checked access runs on exactly when all its bytes exist, and else raises the fault (R46, R146). -/
theorem checkAccess_eq_next {base : Word} {count : Nat} {k : Host.Outcome State Fault Refusal} {t : State}
    (h : checkAccess base count k = .next t) : (count = 0 ∨ base.toNat + (count - 1) ≤ 0xFFF) ∧ k = .next t := by
  unfold checkAccess at h
  split at h
  · exact ⟨(accessInBounds_iff _ _).mp ‹_›, h⟩
  · cases h

theorem checkAccess_of_inBounds {base : Word} {count : Nat} (k : Host.Outcome State Fault Refusal)
    (h : count = 0 ∨ base.toNat + (count - 1) ≤ 0xFFF) : checkAccess base count k = k := by
  simp [checkAccess, (accessInBounds_iff _ _).mpr h]

theorem checkAccess_of_outOfBounds {base : Word} {count : Nat} (k : Host.Outcome State Fault Refusal)
    (h : count ≠ 0) (h' : base.toNat + (count - 1) > 0xFFF) :
    checkAccess base count k = .fault (.memoryOutOfBounds base) := by
  have : ¬ accessInBounds base.toNat count = true := by rw [accessInBounds_iff]; omega
  simp [checkAccess, this, raise]

/-- What `push` can do (R103). -/
theorem State.push_cases (s : State) (ret : Word) :
    (s.sp.val = 16 ∧ s.push ret = none) ∨
    ∃ (h : s.sp.val < 16), s.push ret =
      some { s with stack := s.stack.set s.sp.val ret h, sp := ⟨s.sp.val + 1, by omega⟩ } := by
  by_cases h : s.sp.val < 16
  · exact .inr ⟨h, by simp [State.push, h]⟩
  · exact .inl ⟨by omega, by simp [State.push, h]⟩

/-- What `pop` can do (R101). -/
theorem State.pop_cases (s : State) :
    (s.sp.val = 0 ∧ s.pop = none) ∨
    ∃ (h : 0 < s.sp.val), s.pop =
      some (s.stack[s.sp.val - 1]'(by omega), { s with sp := ⟨s.sp.val - 1, by omega⟩ }) := by
  by_cases h : 0 < s.sp.val
  · exact .inr ⟨h, by simp [State.pop, h]⟩
  · exact .inl ⟨by omega, by simp [State.pop, h]⟩

/-- What a register's value is as a key index (R160). -/
theorem keyIndex_cases (b : Byte) :
    (b.toNat > 15 ∧ keyIndex b = none) ∨ ∃ k : Fin 16, k.val = b.toNat ∧ keyIndex b = some k := by
  by_cases h : b.toNat < 16
  · exact .inr ⟨⟨b.toNat, h⟩, rfl, by simp [keyIndex, h]⟩
  · exact .inl ⟨by omega, by simp [keyIndex, h]⟩

/-- No key is pressed, or the key found is pressed and no lower one is (R163). -/
theorem lowestPressed_cases (keys : Vector Bool 16) :
    ((∀ k, keys.get k = false) ∧ lowestPressed keys = none) ∨
    ∃ k, keys.get k = true ∧ (∀ j < k, keys.get j = false) ∧ lowestPressed keys = some k := by
  cases h : lowestPressed keys with
  | none =>
    refine .inl ⟨fun k => ?_, rfl⟩
    have := List.find?_eq_none.mp h k (List.mem_finRange k)
    simpa using this
  | some k =>
    rw [lowestPressed, List.find?_eq_some_iff_getElem] at h
    obtain ⟨hk, i, hi, hik, hlow⟩ := h
    refine .inr ⟨k, by simpa using hk, fun j hj => ?_, rfl⟩
    have hi' : i = k.val := by simpa using congrArg Fin.val hik
    have := hlow j.val (by rw [hi']; exact hj)
    simpa using this

/-- The first registers after a block is loaded into them from register `k` up (R145). -/
theorem State.readReg_writeRegsFrom (s : State) (k : Nat) (bs : List Byte) (y : Reg) :
    (s.writeRegsFrom k bs).readReg y =
      if k ≤ y.val then bs[y.val - k]?.getD (s.readReg y) else s.readReg y := by
  induction bs generalizing s k with
  | nil => simp [State.writeRegsFrom]
  | cons b bs ih =>
    unfold State.writeRegsFrom
    split
    · rename_i hk
      rw [ih, State.readReg_writeReg]
      rcases Nat.lt_trichotomy y.val k with h | h | h
      · rw [if_neg (by omega), if_neg (by rintro rfl; simp at h), if_neg (by omega)]
      · rw [if_neg (by omega), if_pos (Fin.ext h), if_pos (by omega)]; simp [h]
      · rw [if_pos (by omega), if_neg (by rintro rfl; simp at h), if_pos (by omega)]
        have : y.val - k = (y.val - (k + 1)) + 1 := by omega
        rw [this, List.getElem?_cons_succ]
    · rw [if_neg (by omega)]

/-- Loading registers changes nothing but registers. -/
theorem State.writeRegsFrom_eq (s : State) (k : Nat) (bs : List Byte) :
    s.writeRegsFrom k bs = { s with v := (s.writeRegsFrom k bs).v } := by
  induction bs generalizing s k with
  | nil => rfl
  | cons b bs ih =>
    unfold State.writeRegsFrom
    split
    · rw [ih]; rfl
    · rfl

theorem length_registerBlock (s : State) (x : Reg) : (registerBlock s x).length = x.val + 1 := by
  simp [registerBlock]

theorem getElem?_registerBlock (s : State) (x k : Reg) (h : k ≤ x) :
    (registerBlock s x)[k.val]? = some (s.readReg k) := by
  have : k.val < x.val + 1 := Nat.lt_succ_of_le h
  simp [registerBlock, this, State.readReg, Vector.get_eq_getElem]

/-- When the fetch answers a word, and which (R82, R43). -/
theorem State.fetch_eq_some (s : State) (w : Word) : s.fetch = some w ↔
    s.pc.toNat ≤ 0xFFE ∧ wordOfBytes (Memory.readByte s.mem s.pc.toNat) (Memory.readByte s.mem (s.pc.toNat + 1)) = w := by
  by_cases h : s.pc.toNat ≤ 0xFFE
  · have : accessInBounds s.pc.toNat 2 = true := by rw [accessInBounds_iff]; omega
    simp [State.fetch, this, h]
  · have : accessInBounds s.pc.toNat 2 = false := by
      rw [Bool.eq_false_iff, ne_eq, accessInBounds_iff]; omega
    simp [State.fetch, this, h]

theorem State.fetch_eq_none (s : State) : s.fetch = none ↔ s.pc.toNat ≥ 0xFFF := by
  by_cases h : s.pc.toNat ≤ 0xFFE
  · have : accessInBounds s.pc.toNat 2 = true := by rw [accessInBounds_iff]; omega
    simp [State.fetch, this]; omega
  · have : accessInBounds s.pc.toNat 2 = false := by
      rw [Bool.eq_false_iff, ne_eq, accessInBounds_iff]; omega
    simp [State.fetch, this]; omega

/-- One tick of a timer as a number: down by one, and not below zero (R15, R81). -/
theorem toNat_tickTimer (t : Byte) : (tickTimer t).toNat = t.toNat - 1 := by
  unfold tickTimer
  split
  · simp_all
  · bv_omega

end Sys2Proof.Machine
end

