-- ==== Sys2Proof/Laws/PerInstr.lean ====
section
/-! SUPPORT. Per instruction: the word the encoder writes matches its row of spec/opcode_table.json (mask and match). -/

namespace Sys2Proof

/-- The mask of an instruction's row in spec/opcode_table.json. -/
def Instr.rowMask : Instr → Word
  | .sys _ => 0xF000#16
  | .cls => 0xFFFF#16
  | .ret => 0xFFFF#16
  | .jp _ => 0xF000#16
  | .call _ => 0xF000#16
  | .seImm _ _ => 0xF000#16
  | .sneImm _ _ => 0xF000#16
  | .seReg _ _ => 0xF00F#16
  | .ldImm _ _ => 0xF000#16
  | .addImm _ _ => 0xF000#16
  | .ldReg _ _ => 0xF00F#16
  | .or _ _ => 0xF00F#16
  | .and _ _ => 0xF00F#16
  | .xor _ _ => 0xF00F#16
  | .addReg _ _ => 0xF00F#16
  | .sub _ _ => 0xF00F#16
  | .shr _ _ => 0xF00F#16
  | .subn _ _ => 0xF00F#16
  | .shl _ _ => 0xF00F#16
  | .sneReg _ _ => 0xF00F#16
  | .ldI _ => 0xF000#16
  | .jpV0 _ => 0xF000#16
  | .rnd _ _ => 0xF000#16
  | .drw _ _ _ => 0xF000#16
  | .skp _ => 0xF0FF#16
  | .sknp _ => 0xF0FF#16
  | .ldFromDT _ => 0xF0FF#16
  | .ldKey _ => 0xF0FF#16
  | .ldDT _ => 0xF0FF#16
  | .ldST _ => 0xF0FF#16
  | .addI _ => 0xF0FF#16
  | .ldF _ => 0xF0FF#16
  | .ldB _ => 0xF0FF#16
  | .storeRegs _ => 0xF0FF#16
  | .loadRegs _ => 0xF0FF#16

/-- The match value of an instruction's row in spec/opcode_table.json. -/
def Instr.rowValue : Instr → Word
  | .sys _ => 0x0000#16
  | .cls => 0x00E0#16
  | .ret => 0x00EE#16
  | .jp _ => 0x1000#16
  | .call _ => 0x2000#16
  | .seImm _ _ => 0x3000#16
  | .sneImm _ _ => 0x4000#16
  | .seReg _ _ => 0x5000#16
  | .ldImm _ _ => 0x6000#16
  | .addImm _ _ => 0x7000#16
  | .ldReg _ _ => 0x8000#16
  | .or _ _ => 0x8001#16
  | .and _ _ => 0x8002#16
  | .xor _ _ => 0x8003#16
  | .addReg _ _ => 0x8004#16
  | .sub _ _ => 0x8005#16
  | .shr _ _ => 0x8006#16
  | .subn _ _ => 0x8007#16
  | .shl _ _ => 0x800E#16
  | .sneReg _ _ => 0x9000#16
  | .ldI _ => 0xA000#16
  | .jpV0 _ => 0xB000#16
  | .rnd _ _ => 0xC000#16
  | .drw _ _ _ => 0xD000#16
  | .skp _ => 0xE09E#16
  | .sknp _ => 0xE0A1#16
  | .ldFromDT _ => 0xF007#16
  | .ldKey _ => 0xF00A#16
  | .ldDT _ => 0xF015#16
  | .ldST _ => 0xF018#16
  | .addI _ => 0xF01E#16
  | .ldF _ => 0xF029#16
  | .ldB _ => 0xF033#16
  | .storeRegs _ => 0xF055#16
  | .loadRegs _ => 0xF065#16

/-- The instruction's word has its row's fixed bits. -/
def Laws.RowMatch.Statement (i : Instr) : Prop := encodeWord i &&& i.rowMask = i.rowValue

/-- Format A under its mask. -/
theorem wordA_and_mask (op : Nibble) (addr : Addr) : wordA op addr &&& 0xF000#16 = op ++ 0x000#12 := by
  apply BitVec.eq_of_getLsbD_eq
  intro i hi
  simp only [wordA, BitVec.getLsbD_and, BitVec.getLsbD_append]
  interval_cases i <;> simp

/-- Format XK under its mask. -/
theorem wordXK_and_mask (op : Nibble) (x : Reg) (kk : Byte) : wordXK op x kk &&& 0xF000#16 = op ++ 0x000#12 := by
  apply BitVec.eq_of_getLsbD_eq
  intro i hi
  simp only [wordXK, BitVec.getLsbD_and, BitVec.getLsbD_append]
  interval_cases i <;> simp

/-- Format X under its mask. -/
theorem wordXK_and_minorMask (op : Nibble) (x : Reg) (kk : Byte) :
    wordXK op x kk &&& 0xF0FF#16 = op ++ 0x0#4 ++ kk := by
  apply BitVec.eq_of_getLsbD_eq
  intro i hi
  simp only [wordXK, BitVec.getLsbD_and, BitVec.getLsbD_append]
  interval_cases i <;> simp

/-- Format XY under its mask. -/
theorem wordXYN_and_minorMask (op : Nibble) (x y : Reg) (n : Nibble) :
    wordXYN op x y n &&& 0xF00F#16 = op ++ 0x00#8 ++ n := by
  apply BitVec.eq_of_getLsbD_eq
  intro i hi
  simp only [wordXYN, BitVec.getLsbD_and, BitVec.getLsbD_append]
  interval_cases i <;> simp

/-- Format XYN under its mask. -/
theorem wordXYN_and_mask (op : Nibble) (x y : Reg) (n : Nibble) :
    wordXYN op x y n &&& 0xF000#16 = op ++ 0x000#12 := by
  apply BitVec.eq_of_getLsbD_eq
  intro i hi
  simp only [wordXYN, BitVec.getLsbD_and, BitVec.getLsbD_append]
  interval_cases i <;> simp

theorem Laws.RowMatch.sys (addr : Addr) : Laws.RowMatch.Statement (.sys addr) :=
  (wordA_and_mask _ _).trans rfl
theorem Laws.RowMatch.cls : Laws.RowMatch.Statement (.cls) := rfl
theorem Laws.RowMatch.ret : Laws.RowMatch.Statement (.ret) := rfl
theorem Laws.RowMatch.jp (addr : Addr) : Laws.RowMatch.Statement (.jp addr) :=
  (wordA_and_mask _ _).trans rfl
theorem Laws.RowMatch.call (addr : Addr) : Laws.RowMatch.Statement (.call addr) :=
  (wordA_and_mask _ _).trans rfl
theorem Laws.RowMatch.seImm (x : Reg) (kk : Byte) : Laws.RowMatch.Statement (.seImm x kk) :=
  (wordXK_and_mask _ _ _).trans rfl
theorem Laws.RowMatch.sneImm (x : Reg) (kk : Byte) : Laws.RowMatch.Statement (.sneImm x kk) :=
  (wordXK_and_mask _ _ _).trans rfl
theorem Laws.RowMatch.seReg (x : Reg) (y : Reg) : Laws.RowMatch.Statement (.seReg x y) :=
  (wordXYN_and_minorMask _ _ _ _).trans rfl
theorem Laws.RowMatch.ldImm (x : Reg) (kk : Byte) : Laws.RowMatch.Statement (.ldImm x kk) :=
  (wordXK_and_mask _ _ _).trans rfl
theorem Laws.RowMatch.addImm (x : Reg) (kk : Byte) : Laws.RowMatch.Statement (.addImm x kk) :=
  (wordXK_and_mask _ _ _).trans rfl
theorem Laws.RowMatch.ldReg (x : Reg) (y : Reg) : Laws.RowMatch.Statement (.ldReg x y) :=
  (wordXYN_and_minorMask _ _ _ _).trans rfl
theorem Laws.RowMatch.or (x : Reg) (y : Reg) : Laws.RowMatch.Statement (.or x y) :=
  (wordXYN_and_minorMask _ _ _ _).trans rfl
theorem Laws.RowMatch.and (x : Reg) (y : Reg) : Laws.RowMatch.Statement (.and x y) :=
  (wordXYN_and_minorMask _ _ _ _).trans rfl
theorem Laws.RowMatch.xor (x : Reg) (y : Reg) : Laws.RowMatch.Statement (.xor x y) :=
  (wordXYN_and_minorMask _ _ _ _).trans rfl
theorem Laws.RowMatch.addReg (x : Reg) (y : Reg) : Laws.RowMatch.Statement (.addReg x y) :=
  (wordXYN_and_minorMask _ _ _ _).trans rfl
theorem Laws.RowMatch.sub (x : Reg) (y : Reg) : Laws.RowMatch.Statement (.sub x y) :=
  (wordXYN_and_minorMask _ _ _ _).trans rfl
theorem Laws.RowMatch.shr (x : Reg) (y : Reg) : Laws.RowMatch.Statement (.shr x y) :=
  (wordXYN_and_minorMask _ _ _ _).trans rfl
theorem Laws.RowMatch.subn (x : Reg) (y : Reg) : Laws.RowMatch.Statement (.subn x y) :=
  (wordXYN_and_minorMask _ _ _ _).trans rfl
theorem Laws.RowMatch.shl (x : Reg) (y : Reg) : Laws.RowMatch.Statement (.shl x y) :=
  (wordXYN_and_minorMask _ _ _ _).trans rfl
theorem Laws.RowMatch.sneReg (x : Reg) (y : Reg) : Laws.RowMatch.Statement (.sneReg x y) :=
  (wordXYN_and_minorMask _ _ _ _).trans rfl
theorem Laws.RowMatch.ldI (addr : Addr) : Laws.RowMatch.Statement (.ldI addr) :=
  (wordA_and_mask _ _).trans rfl
theorem Laws.RowMatch.jpV0 (addr : Addr) : Laws.RowMatch.Statement (.jpV0 addr) :=
  (wordA_and_mask _ _).trans rfl
theorem Laws.RowMatch.rnd (x : Reg) (kk : Byte) : Laws.RowMatch.Statement (.rnd x kk) :=
  (wordXK_and_mask _ _ _).trans rfl
theorem Laws.RowMatch.drw (x : Reg) (y : Reg) (n : Fin 16) : Laws.RowMatch.Statement (.drw x y n) :=
  (wordXYN_and_mask _ _ _ _).trans rfl
theorem Laws.RowMatch.skp (x : Reg) : Laws.RowMatch.Statement (.skp x) :=
  (wordXK_and_minorMask _ _ _).trans rfl
theorem Laws.RowMatch.sknp (x : Reg) : Laws.RowMatch.Statement (.sknp x) :=
  (wordXK_and_minorMask _ _ _).trans rfl
theorem Laws.RowMatch.ldFromDT (x : Reg) : Laws.RowMatch.Statement (.ldFromDT x) :=
  (wordXK_and_minorMask _ _ _).trans rfl
theorem Laws.RowMatch.ldKey (x : Reg) : Laws.RowMatch.Statement (.ldKey x) :=
  (wordXK_and_minorMask _ _ _).trans rfl
theorem Laws.RowMatch.ldDT (x : Reg) : Laws.RowMatch.Statement (.ldDT x) :=
  (wordXK_and_minorMask _ _ _).trans rfl
theorem Laws.RowMatch.ldST (x : Reg) : Laws.RowMatch.Statement (.ldST x) :=
  (wordXK_and_minorMask _ _ _).trans rfl
theorem Laws.RowMatch.addI (x : Reg) : Laws.RowMatch.Statement (.addI x) :=
  (wordXK_and_minorMask _ _ _).trans rfl
theorem Laws.RowMatch.ldF (x : Reg) : Laws.RowMatch.Statement (.ldF x) :=
  (wordXK_and_minorMask _ _ _).trans rfl
theorem Laws.RowMatch.ldB (x : Reg) : Laws.RowMatch.Statement (.ldB x) :=
  (wordXK_and_minorMask _ _ _).trans rfl
theorem Laws.RowMatch.storeRegs (x : Reg) : Laws.RowMatch.Statement (.storeRegs x) :=
  (wordXK_and_minorMask _ _ _).trans rfl
theorem Laws.RowMatch.loadRegs (x : Reg) : Laws.RowMatch.Statement (.loadRegs x) :=
  (wordXK_and_minorMask _ _ _).trans rfl

end Sys2Proof
end

