-- ==== Sys2Proof/Laws/Step.lean ====
section
/-! SUPPORT. Everything a step can do, said once (R80, R90). -/

namespace Sys2Proof.Machine

/-- A step that answers a next state: the core had not faulted, a word was fetched, and either its instruction ran in
the state the tick left or it was reported as unrecognized. -/
theorem step_next_cases {s t : State} (h : step s = .next t) :
    s.fault = none ∧ ∃ w, s.beginStep.fetch = some w ∧
      ((∃ i, decodeWord w = .ok i ∧ exec i s.beginStep = .next t) ∨
       (∃ e, decodeWord w = .error e ∧ t = reportUnrecognized w s.beginStep)) := by
  unfold step at h
  split at h
  · cases h
  · rename_i hf
    refine ⟨hf, ?_⟩
    split at h
    · cases h
    · rename_i w hw
      refine ⟨w, hw, ?_⟩
      split at h
      · rename_i i hi; exact .inl ⟨i, hi, h⟩
      · rename_i e he; exact .inr ⟨e, he, by cases h; rfl⟩

/-- A step of a core that has faulted (R88). -/
theorem step_of_fault {s : State} {c : FaultCause} (h : s.fault = some c) : step s = .fault (.stuck c) := by
  simp [step, h, raise]

/-- A step whose fetch finds no byte (R82). -/
theorem step_of_fetch_none {s : State} (hf : s.fault = none) (h : s.beginStep.fetch = none) :
    step s = .fault (.memoryOutOfBounds s.pc) := by
  simp [step, hf, h, raise]

/-- A step whose word decodes (R83, R84). -/
theorem step_of_decode {s : State} {w : Word} {i : Instr} (hf : s.fault = none) (h : s.beginStep.fetch = some w)
    (hi : decodeWord w = .ok i) : step s = exec i s.beginStep := by
  simp [step, hf, h, hi]

/-- A step whose word is of no row (R85). -/
theorem step_of_decode_error {s : State} {w : Word} {e : DecodeError} (hf : s.fault = none)
    (h : s.beginStep.fetch = some w) (he : decodeWord w = .error e) :
    step s = .next (reportUnrecognized w s.beginStep) := by
  simp [step, hf, h, he]

end Sys2Proof.Machine
end

