-- ==== Sys2Proof/Tests/Slice0.lean ====
section
/-! SUPPORT. Tests. Every expected value comes from spec/: 95_test_vectors.md (the vector or example is named at each
test) or the encoding table R66, whose words are written out here nibble by nibble. The last part gives, for every
obligation that has hypotheses, a concrete state and operands that meet them. -/

namespace Sys2Proof.Tests

open Sys2Proof Sys2Proof.Machine Sys2Proof.Safety

/-! ## Helpers -/

/-- The outcome is a next state that satisfies `p`. -/
def after (o : Host.Outcome State Fault Refusal) (p : State → Bool) : Bool :=
  match o with
  | .next t => p t
  | .fault _ => false
  | .refused _ => false

/-- The outcome is the fault `f`. -/
def faultsWith (o : Host.Outcome State Fault Refusal) (f : Fault) : Bool :=
  match o with
  | .next _ => false
  | .fault g => g = f
  | .refused _ => false

/-- Reset with some registers set. -/
def regs (l : List (Reg × Byte)) : State := l.foldl (fun s p => s.writeReg p.1 p.2) State.reset

/-- One step with the opcode `w` placed at `PC`: the convention of 95_test_vectors.md. -/
def run (w : Nat) (s : State) : Host.Outcome State Fault Refusal := step (s.withFetchWord 16 w)

/-- `s` with bytes stored from `a` up. -/
def stored (a : Nat) (bytes : List Byte) (s : State) : State := s.setMem (Memory.writeBytes s.mem a bytes)

/-- `s` with one pixel lit. -/
def lit (x : Fin 64) (y : Fin 32) (s : State) : State := s.setDisp (Display.toggle s.disp x y)

/-- `s` with one key pressed. -/
def press (k : Fin 16) (s : State) : State := { s with key := s.key.set k.val true k.isLt }

/-- `s` with `n` stack entries live, all 0x0206. -/
def stacked (n : Fin 17) (s : State) : State := { s with sp := n, stack := Vector.replicate 16 0x0206#16 }

/-! ## WellFormed -/

theorem test_sys_word_of_cls_is_ill_formed : Instr.wellFormed (.sys 0x0E0) = false := by decide
theorem test_sys_word_of_return_is_ill_formed : Instr.wellFormed (.sys 0x0EE) = false := by decide
theorem test_sys_is_well_formed : Instr.wellFormed (.sys 0x0E1) = true := by decide

/-! ## Decoding, every constructor by a word written out from R66 -/

theorem test_decode_sys : decodeWord (0x0#4 ++ 0x1#4 ++ 0x2#4 ++ 0x3#4) = .ok (.sys 0x123) := by decide
theorem test_decode_cls : decodeWord (0x0#4 ++ 0x0#4 ++ 0xE#4 ++ 0x0#4) = .ok .cls := by decide
theorem test_decode_return : decodeWord (0x0#4 ++ 0x0#4 ++ 0xE#4 ++ 0xE#4) = .ok .ret := by decide
theorem test_decode_jp : decodeWord (0x1#4 ++ 0xA#4 ++ 0xB#4 ++ 0xC#4) = .ok (.jp 0xABC) := by decide
theorem test_decode_call : decodeWord (0x2#4 ++ 0x3#4 ++ 0x0#4 ++ 0x1#4) = .ok (.call 0x301) := by decide
theorem test_decode_seImm : decodeWord (0x3#4 ++ 0xA#4 ++ 0x0#4 ++ 0x5#4) = .ok (.seImm 10 0x05) := by decide
theorem test_decode_sneImm : decodeWord (0x4#4 ++ 0xA#4 ++ 0x5#4 ++ 0x0#4) = .ok (.sneImm 10 0x50) := by decide
theorem test_decode_seReg : decodeWord (0x5#4 ++ 0x1#4 ++ 0x2#4 ++ 0x0#4) = .ok (.seReg 1 2) := by decide
theorem test_decode_ldImm : decodeWord (0x6#4 ++ 0xA#4 ++ 0x0#4 ++ 0x5#4) = .ok (.ldImm 10 0x05) := by decide
theorem test_decode_addImm : decodeWord (0x7#4 ++ 0x3#4 ++ 0xF#4 ++ 0xE#4) = .ok (.addImm 3 0xFE) := by decide
theorem test_decode_ldReg : decodeWord (0x8#4 ++ 0xA#4 ++ 0xB#4 ++ 0x0#4) = .ok (.ldReg 10 11) := by decide
theorem test_decode_or : decodeWord (0x8#4 ++ 0xA#4 ++ 0xB#4 ++ 0x1#4) = .ok (.or 10 11) := by decide
theorem test_decode_and : decodeWord (0x8#4 ++ 0xA#4 ++ 0xB#4 ++ 0x2#4) = .ok (.and 10 11) := by decide
theorem test_decode_xor : decodeWord (0x8#4 ++ 0xA#4 ++ 0xB#4 ++ 0x3#4) = .ok (.xor 10 11) := by decide
theorem test_decode_addReg : decodeWord (0x8#4 ++ 0xA#4 ++ 0xB#4 ++ 0x4#4) = .ok (.addReg 10 11) := by decide
theorem test_decode_sub : decodeWord (0x8#4 ++ 0xA#4 ++ 0xB#4 ++ 0x5#4) = .ok (.sub 10 11) := by decide
theorem test_decode_shr : decodeWord (0x8#4 ++ 0x1#4 ++ 0xF#4 ++ 0x6#4) = .ok (.shr 1 15) := by decide
theorem test_decode_subn : decodeWord (0x8#4 ++ 0xA#4 ++ 0xB#4 ++ 0x7#4) = .ok (.subn 10 11) := by decide
theorem test_decode_shl : decodeWord (0x8#4 ++ 0x1#4 ++ 0xF#4 ++ 0xE#4) = .ok (.shl 1 15) := by decide
theorem test_decode_sneReg : decodeWord (0x9#4 ++ 0x1#4 ++ 0x2#4 ++ 0x0#4) = .ok (.sneReg 1 2) := by decide
theorem test_decode_ldI : decodeWord (0xA#4 ++ 0x3#4 ++ 0x2#4 ++ 0x1#4) = .ok (.ldI 0x321) := by decide
theorem test_decode_jpV0 : decodeWord (0xB#4 ++ 0xF#4 ++ 0xF#4 ++ 0xE#4) = .ok (.jpV0 0xFFE) := by decide
theorem test_decode_rnd : decodeWord (0xC#4 ++ 0x1#4 ++ 0x0#4 ++ 0xF#4) = .ok (.rnd 1 0x0F) := by decide
theorem test_decode_drw : decodeWord (0xD#4 ++ 0x1#4 ++ 0x2#4 ++ 0x5#4) = .ok (.drw 1 2 5) := by decide
theorem test_decode_skp : decodeWord (0xE#4 ++ 0x5#4 ++ 0x9#4 ++ 0xE#4) = .ok (.skp 5) := by decide
theorem test_decode_sknp : decodeWord (0xE#4 ++ 0x5#4 ++ 0xA#4 ++ 0x1#4) = .ok (.sknp 5) := by decide
theorem test_decode_ldFromDT : decodeWord (0xF#4 ++ 0xE#4 ++ 0x0#4 ++ 0x7#4) = .ok (.ldFromDT 14) := by decide
theorem test_decode_ldKey : decodeWord (0xF#4 ++ 0xE#4 ++ 0x0#4 ++ 0xA#4) = .ok (.ldKey 14) := by decide
theorem test_decode_ldDT : decodeWord (0xF#4 ++ 0xE#4 ++ 0x1#4 ++ 0x5#4) = .ok (.ldDT 14) := by decide
theorem test_decode_ldST : decodeWord (0xF#4 ++ 0xE#4 ++ 0x1#4 ++ 0x8#4) = .ok (.ldST 14) := by decide
theorem test_decode_addI : decodeWord (0xF#4 ++ 0xE#4 ++ 0x1#4 ++ 0xE#4) = .ok (.addI 14) := by decide
theorem test_decode_ldF : decodeWord (0xF#4 ++ 0xE#4 ++ 0x2#4 ++ 0x9#4) = .ok (.ldF 14) := by decide
theorem test_decode_ldB : decodeWord (0xF#4 ++ 0xE#4 ++ 0x3#4 ++ 0x3#4) = .ok (.ldB 14) := by decide
theorem test_decode_storeRegs : decodeWord (0xF#4 ++ 0xE#4 ++ 0x5#4 ++ 0x5#4) = .ok (.storeRegs 14) := by decide
theorem test_decode_loadRegs : decodeWord (0xF#4 ++ 0xE#4 ++ 0x6#4 ++ 0x5#4) = .ok (.loadRegs 14) := by decide

/-- V-ENC-14 to V-ENC-18: words of no row, each answered by name. -/
theorem test_words_of_no_row_are_unrecognized :
    ([0x5121#16, 0x512F#16, 0x9AB1#16, 0x8AB8#16, 0x8AB9#16, 0x8ABA#16, 0x8ABB#16, 0x8ABC#16, 0x8ABD#16,
      0x8ABF#16, 0xE100#16, 0xE19F#16, 0xE1A0#16, 0xE1FF#16, 0xF100#16, 0xF108#16, 0xF11F#16, 0xF130#16, 0xF175#16,
      0xF185#16, 0xF1FF#16].all fun w => decodeWord w = .error (.unrecognized w)) = true := by decide

/-- V-ENC-12, V-ENC-13: the words of the SYS row are not recognized. -/
theorem test_sys_words_are_not_recognized :
    ([0x0000#16, 0x00E1#16, 0x00EF#16, 0x0123#16, 0x0FFF#16].any recognized) = false := by decide

/-- R60: one byte is no instruction. -/
theorem test_one_byte_is_truncated : decode [0x6A] = .error .truncated := by decide

/-- R43 and the bytes of S3: the first byte is the high one, and the bytes after the opcode are left. -/
theorem test_decode_takes_two_bytes : decode [0x6A, 0x05, 0x12] = .ok (.ldImm 10 0x05, [0x12]) := by decide

/-- The bytes of S3. -/
theorem test_encode_of_load_immediate : encode (.ldImm 10 0x05) = [0x6A, 0x05] := by decide

/-- V-ENC-6, numbered as the opcode table numbers it. -/
theorem test_table_word : decodeTableWord 16 0x8AB4 = some (.addReg 10 11) := by decide

/-! ## Control transfer -/

/-- V-CTL-25. -/
theorem test_sys : after (run 0x0123 State.reset) (fun t => t.pc = 0x202 && t.diag = some ⟨0x200, 0x0123⟩) := by decide
/-- V-CTL-9. -/
theorem test_return : after (run 0x00EE { stacked 1 State.reset with pc := 0x30C }) (fun t => t.pc = 0x206 && t.sp = 0) := by
  decide
/-- V-CTL-10. -/
theorem test_return_empty : faultsWith (run 0x00EE State.reset) (.callStackUnderflow 0x200) := by decide
/-- V-CTL-1. -/
theorem test_jp : after (run 0x1204 State.reset) (fun t => t.pc = 0x204) := by decide
/-- V-CTL-5. -/
theorem test_jp_odd : after (run 0x1201 State.reset) (fun t => t.pc = 0x201) := by decide
/-- V-CTL-7. -/
theorem test_call : after (run 0x2300 (stacked 15 State.reset))
    (fun t => t.pc = 0x300 && t.sp = 16 && t.stack[15] = 0x0202 && t.stack[14] = 0x0206) := by decide
/-- V-CTL-8. -/
theorem test_call_full : faultsWith (run 0x2300 (stacked 16 State.reset)) (.callStackOverflow 0x200) := by decide
/-- V-CTL-12. -/
theorem test_jpV0_exact_sum : after (run 0xBFFF (regs [(0, 0xFF)])) (fun t => t.pc = 0x10FE) := by decide
/-- V-CTL-13. -/
theorem test_jpV0_uses_V0 : after (run 0xB300 (regs [(3, 0x40)])) (fun t => t.pc = 0x300) := by decide
/-- V-CTL-24. -/
theorem test_seImm : after (run 0x3F01 (regs [(15, 0x01)])) (fun t => t.pc = 0x204) := by decide
/-- V-CTL-15. -/
theorem test_seImm_falls_through : after (run 0x3000 (regs [(0, 0x01)])) (fun t => t.pc = 0x202) := by decide
/-- V-CTL-16. -/
theorem test_sneImm_falls_through : after (run 0x4A05 (regs [(10, 0x05)])) (fun t => t.pc = 0x202) := by decide
/-- V-CTL-17. -/
theorem test_sneImm : after (run 0x4A05 (regs [(10, 0x06)])) (fun t => t.pc = 0x204) := by decide
/-- V-CTL-18. -/
theorem test_seReg : after (run 0x5120 (regs [(1, 0x7F), (2, 0x7F)])) (fun t => t.pc = 0x204) := by decide
/-- V-CTL-19. -/
theorem test_seReg_falls_through : after (run 0x5120 (regs [(1, 0x7F), (2, 0x7E)])) (fun t => t.pc = 0x202) := by decide
/-- V-CTL-21. -/
theorem test_sneReg : after (run 0x9120 (regs [(2, 0x01)])) (fun t => t.pc = 0x204) := by decide
/-- V-CTL-22. -/
theorem test_sneReg_falls_through : after (run 0x9120 (regs [(1, 0x01), (2, 0x01)])) (fun t => t.pc = 0x202) := by decide

/-! ## Load, arithmetic, logic, random -/

/-- S3. -/
theorem test_ldImm : after (run 0x6A05 State.reset) (fun t => t.readReg 10 = 0x05 && t.pc = 0x202) := by decide
/-- V-ALU-4. -/
theorem test_addImm : after (run 0x7001 (regs [(0, 0xFF), (15, 0x55)]))
    (fun t => t.readReg 0 = 0x00 && t.readReg 15 = 0x55) := by decide
/-- V-ALU-6. -/
theorem test_ldReg : after (run 0x8120 (regs [(2, 0x3C)])) (fun t => t.readReg 1 = 0x3C && t.readReg 2 = 0x3C) := by decide
/-- V-ALU-7. -/
theorem test_or : after (run 0x8121 (regs [(1, 0x0F), (2, 0xF0), (15, 0x07)]))
    (fun t => t.readReg 1 = 0xFF && t.readReg 15 = 0x07) := by decide
/-- V-ALU-8. -/
theorem test_and : after (run 0x8122 (regs [(1, 0x3C), (2, 0x0F)])) (fun t => t.readReg 1 = 0x0C) := by decide
/-- V-ALU-9. -/
theorem test_xor : after (run 0x8123 (regs [(1, 0xFF), (2, 0x0F)])) (fun t => t.readReg 1 = 0xF0) := by decide
/-- V-ALU-14: the sum is lost under the flag. -/
theorem test_addReg_into_VF : after (run 0x8F14 (regs [(15, 0x10), (1, 0x20)])) (fun t => t.readReg 15 = 0x00) := by decide
/-- V-ALU-16. -/
theorem test_addReg_itself : after (run 0x8114 (regs [(1, 0x90)])) (fun t => t.readReg 1 = 0x20 && t.readReg 15 = 1) := by
  decide
/-- V-ALU-21. -/
theorem test_sub_borrow : after (run 0x8125 (regs [(1, 0x03), (2, 0x05)]))
    (fun t => t.readReg 1 = 0xFE && t.readReg 15 = 0) := by decide
/-- V-ALU-22: equal operands do not borrow. -/
theorem test_sub_equal : after (run 0x8125 (regs [(1, 0x05), (2, 0x05)]))
    (fun t => t.readReg 1 = 0x00 && t.readReg 15 = 1) := by decide
/-- V-ALU-31: y is ignored. -/
theorem test_shr : after (run 0x8126 (regs [(1, 0x05), (2, 0xF0)]))
    (fun t => t.readReg 1 = 0x02 && t.readReg 15 = 1 && t.readReg 2 = 0xF0) := by decide
/-- V-ALU-18. -/
theorem test_shr_of_VF : after (run 0x8F06 (regs [(15, 0x06)])) (fun t => t.readReg 15 = 0) := by decide
/-- V-ALU-32. -/
theorem test_subn : after (run 0x8127 (regs [(1, 0x03), (2, 0x05)]))
    (fun t => t.readReg 1 = 0x02 && t.readReg 15 = 1) := by decide
/-- V-ALU-33. -/
theorem test_subn_borrow : after (run 0x8127 (regs [(1, 0x05), (2, 0x03)]))
    (fun t => t.readReg 1 = 0xFE && t.readReg 15 = 0) := by decide
/-- V-ALU-36. -/
theorem test_shl : after (run 0x810E (regs [(1, 0x40), (15, 1)])) (fun t => t.readReg 1 = 0x80 && t.readReg 15 = 0) := by
  decide
/-- V-ALU-19. -/
theorem test_shl_of_VF : after (run 0x8F0E (regs [(15, 0x81)])) (fun t => t.readReg 15 = 1) := by decide
/-- V-ALU-38, for the draw 0xA7. -/
theorem test_rnd_masks : after (randomAnd 0xA7 1 0x0F State.reset) (fun t => t.readReg 1 = 0x07 && t.pc = 0x202) := by decide
/-- V-ALU-40, for the draw 0x5C. -/
theorem test_rnd_whole : after (randomAnd 0x5C 1 0xFF State.reset) (fun t => t.readReg 1 = 0x5C) := by decide

/-! ## Index and memory -/

/-- V-IDX-1. -/
theorem test_ldI : after (run 0xA300 (State.reset.setI 0xFFFF)) (fun t => t.i = 0x0300) := by decide
/-- V-IDX-2. -/
theorem test_addI : after (run 0xF01E ((regs [(0, 0x01)]).setI 0x0FFF)) (fun t => t.i = 0x1000 && t.readReg 15 = 0) := by
  decide
/-- V-IDX-3. -/
theorem test_addI_wraps : after (run 0xF01E ((regs [(0, 0x02)]).setI 0xFFFF)) (fun t => t.i = 0x0001) := by decide
/-- V-IDX-5. -/
theorem test_ldF : after (run 0xF029 (regs [(0, 0x0F)])) (fun t => t.i = 0x004B) := by decide
/-- V-IDX-6. -/
theorem test_ldF_of_no_digit : after (run 0xF029 (regs [(0, 0xFF)])) (fun t => t.i = 0x04FB) := by decide
/-- V-IDX-11. -/
theorem test_ldB : after (run 0xF033 ((regs [(0, 0x09)]).setI 0xFFD))
    (fun t => Memory.readBytes t.mem 0xFFD 3 = [0x00, 0x00, 0x09]) := by decide
/-- V-IDX-12. -/
theorem test_ldB_past_the_end : faultsWith (run 0xF033 (State.reset.setI 0xFFE)) (.memoryOutOfBounds 0xFFE) := by decide
/-- V-IDX-13. -/
theorem test_storeRegs : after (run 0xF255 ((regs [(0, 0x11), (1, 0x22), (2, 0x33), (3, 0x44)]).setI 0x400))
    (fun t => Memory.readBytes t.mem 0x400 4 = [0x11, 0x22, 0x33, 0x00] && t.i = 0x400) := by decide
/-- V-IDX-15. -/
theorem test_storeRegs_past_the_end : faultsWith (run 0xF155 (State.reset.setI 0xFFF)) (.memoryOutOfBounds 0xFFF) := by decide
/-- V-IDX-18. -/
theorem test_loadRegs : after (run 0xF265 ((stored 0x300 [0x02, 0x05, 0x04] (regs [(3, 0x77)])).setI 0x300))
    (fun t => t.v.toList.take 4 = [2, 5, 4, 0x77] && t.i = 0x300) := by decide
/-- V-IDX-20. -/
theorem test_loadRegs_past_the_end : faultsWith (run 0xF065 (State.reset.setI 0x1000)) (.memoryOutOfBounds 0x1000) := by
  decide

/-! ## Display -/

/-- V-DSP-1. -/
theorem test_cls : after (run 0x00E0 (lit 5 5 (lit 63 31 (regs [(15, 1)]))))
    (fun t => !(Display.pixel t.disp 5 5) && !(Display.pixel t.disp 63 31) && t.readReg 15 = 1) := by decide
/-- V-DSP-4, its corner pixels: a sprite over both edges. -/
theorem test_drw_wraps : after (run 0xD012 ((stored 0x20A [0xFF, 0xFF] (regs [(0, 0x3E), (1, 0x1F)])).setI 0x20A))
    (fun t => Display.pixel t.disp 62 31 && Display.pixel t.disp 5 31 && Display.pixel t.disp 63 0 &&
      Display.pixel t.disp 0 0 && !(Display.pixel t.disp 6 0) && !(Display.pixel t.disp 61 31) && t.readReg 15 = 0) := by
  decide
/-- V-DSP-6: one pixel erased, one lit. -/
theorem test_drw_erases : after (run 0xD001 (lit 0 0 ((stored 0x300 [0xC0] State.reset).setI 0x300)))
    (fun t => !(Display.pixel t.disp 0 0) && Display.pixel t.disp 1 0 && t.readReg 15 = 1) := by decide

/-! ## Timers and keypad -/

/-- V-TK-14. -/
theorem test_skp : after (run 0xE19E (press 15 (regs [(1, 0x0F)]))) (fun t => t.pc = 0x204) := by decide
/-- V-TK-12. -/
theorem test_skp_no_such_key : faultsWith (run 0xE19E (regs [(1, 0x10)])) (.keyIndexOutOfRange 0x10) := by decide
/-- V-TK-10. -/
theorem test_sknp : after (run 0xE1A1 (regs [(1, 0x07)])) (fun t => t.pc = 0x204) := by decide
/-- V-TK-11. -/
theorem test_sknp_pressed : after (run 0xE1A1 (press 7 (regs [(1, 0x07)]))) (fun t => t.pc = 0x202) := by decide
/-- V-TK-2: the decremented timer is read. -/
theorem test_ldFromDT : after (run 0xF107 (State.reset.setDT 3)) (fun t => t.dt = 2 && t.readReg 1 = 2) := by decide
/-- V-TK-15. -/
theorem test_ldKey_waits : after (run 0xF20A ((regs [(2, 0x55)]).setDT 4))
    (fun t => t.pc = 0x200 && t.readReg 2 = 0x55 && t.dt = 3) := by decide
/-- V-TK-16. -/
theorem test_ldKey_lowest : after (run 0xF20A (press 9 (press 7 State.reset)))
    (fun t => t.readReg 2 = 0x07 && t.pc = 0x202) := by decide
/-- V-TK-5: the tick, then the write. -/
theorem test_ldDT : after (run 0xF015 ((regs [(0, 0x03)]).setDT 9)) (fun t => t.dt = 3) := by decide
/-- V-TK-6. -/
theorem test_ldST : after (run 0xF118 (regs [(1, 0x02)])) (fun t => t.st = 2) := by decide

/-! ## The step, faults, the host -/

/-- V-UNR-1. -/
theorem test_unrecognized_ticks : after (run 0x0000 ((State.reset.setDT 3).setST 1))
    (fun t => t.pc = 0x202 && t.dt = 2 && t.st = 0 && t.diag = some ⟨0x200, 0x0000⟩) := by decide
/-- V-UNR-2. -/
theorem test_unrecognized : after (run 0x5121 (regs [(1, 7)])) (fun t => t.pc = 0x202 && t.diag = some ⟨0x200, 0x5121⟩) := by
  decide
/-- V-FLT-1. -/
theorem test_last_fetch : after (run 0x6001 (State.reset.setPC 0xFFE)) (fun t => t.readReg 0 = 1 && t.pc = 0x1000) := by decide
/-- V-FLT-3. -/
theorem test_fetch_past_the_end : faultsWith (step (State.reset.setPC 0xFFF)) (.memoryOutOfBounds 0xFFF) := by decide
/-- V-FLT-4. -/
theorem test_faulted_core_is_stuck :
    faultsWith (step { State.reset with fault := some .callStackOverflow }) (.stuck .callStackOverflow) := by decide
/-- V-HST-3. -/
theorem test_load_program_again :
    Memory.readBytes ((HostMove.load [0x11, 0x22]).apply ((HostMove.load [0xAA, 0xBB, 0xCC, 0xDD]).apply State.reset)).mem
      0x200 4 = [0x11, 0x22, 0xCC, 0xDD] := by decide
/-- S2: 3585 bytes are too many. -/
theorem test_program_too_large : loadProgram (List.replicate 3585 0x00) State.reset = .error .programTooLarge := by
  rw [loadProgram, List.length_replicate, if_neg (by decide)]
/-- V-HST-4: set and cleared. -/
theorem test_set_key :
    ((HostMove.key 3 true).apply State.reset).key.get 3 = true ∧
      ((HostMove.key 3 false).apply ((HostMove.key 3 true).apply State.reset)).key = State.reset.key := by decide
/-- R177. -/
theorem test_set_key_no_such_key : setKey 16 true State.reset = .error .invalidKeyIndex := by decide
/-- S1: the font's first glyph, and PC. -/
theorem test_reset : State.reset.pc = 0x200 ∧ Memory.readBytes State.reset.mem 0 5 = [0xF0, 0x90, 0x90, 0x90, 0xF0] := by decide

/-! ## Witnesses: what the hypotheses of each obligation ask for, met by concrete states and operands -/

theorem exists_next {o : Host.Outcome State Fault Refusal} {p : State → Bool} (h : after o p = true) :
    ∃ t, o = .next t ∧ p t = true := by
  cases o with
  | next t => exact ⟨t, rfl, h⟩
  | fault f => cases h
  | refused r => cases h

theorem runs_of {s : State} {w : Word} {i : Instr} (hw : s.fault = none ∧ s.pc.toNat ≤ 0xFFE ∧
    w = Memory.readByte s.mem s.pc.toNat ++ Memory.readByte s.mem (s.pc.toNat + 1)) (hi : decodeWord w = .ok i) :
    Runs s i := ⟨w, hw, hi⟩

theorem runs_unique {s : State} {i j : Instr} : Runs s i → Runs s j → i = j := by
  rintro ⟨w, ⟨_, _, hw⟩, hi⟩ ⟨w', ⟨_, _, hw'⟩, hj⟩
  rw [hw, ← hw', hj] at hi
  injection hi with hi
  exact hi.symm

theorem reset_is_dark (X : Fin 64) (Y : Fin 32) : Display.pixel State.reset.disp X Y = false := by
  simp [Display.pixel, State.reset, Vector.get_eq_getElem]

theorem reset_has_no_key (k : Fin 16) : State.reset.key.get k = false := by
  simp [State.reset, Vector.get_eq_getElem]

theorem witness_DecodeOfEncodeIsTheInstruction :
    Instr.wellFormed (.sys 0xFFF) = true ∧ Instr.wellFormed (.drw 15 0 15) = true := by decide

theorem witness_EncodeOfDecodeIsTheWord : decodeWord 0xDF0F#16 = .ok (.drw 15 0 15) := by decide

theorem witness_DecodePicksTheUniqueTableRow :
    (∃ r, rowsMatching 0x8AB4#16 = [r]) ∧ rowsMatching 0x0FFF#16 = [] ∧ rowsMatching 0x8AB8#16 = [] :=
  ⟨⟨_, rfl⟩, rfl, rfl⟩

theorem witness_StepRunsDecodedInstruction : Runs ((State.reset.setPC 0xFFE).withFetchWord 16 0x6A05) (.ldImm 10 0x05) :=
  runs_of (w := 0x6A05) (by decide) (by decide)

theorem witness_FetchIsBigEndianAndBounded :
    ((State.reset.setPC 0xFFE).fetch = some 0x0000) ∧
    ((State.reset.setPC 0xFFF).fault = none ∧ (State.reset.setPC 0xFFF).pc.toNat ≥ 0xFFF) := by decide

/-- One state for each clause; timers at 0 and at 255. -/
theorem witness_StepTicksBothTimers :
    (∃ s t, step s = .next t ∧ (∀ x, ¬ Runs s (.ldDT x)) ∧ (∀ x, ¬ Runs s (.ldST x)) ∧ s.dt = 0xFF ∧ s.st = 0) ∧
    (∃ s t x, step s = .next t ∧ Runs s (.ldDT x)) ∧ (∃ s t x, step s = .next t ∧ Runs s (.ldST x)) ∧
    (∃ s t x, step s = .next t ∧ Runs s (.ldFromDT x)) := by
  have h : ∀ w : Nat, after (run w (State.reset.setDT 0xFF)) (fun _ => true) = true →
      ∃ t, step ((State.reset.setDT 0xFF).withFetchWord 16 w) = .next t := fun w h =>
    (exists_next h).imp fun _ ht => ht.1
  have r : Runs ((State.reset.setDT 0xFF).withFetchWord 16 0x6A05) (.ldImm 10 0x05) :=
    runs_of (w := 0x6A05) (by decide) (by decide)
  obtain ⟨t1, h1⟩ := h 0x6A05 (by decide)
  obtain ⟨t2, h2⟩ := h 0xF015 (by decide)
  obtain ⟨t3, h3⟩ := h 0xFF18 (by decide)
  obtain ⟨t4, h4⟩ := h 0xF107 (by decide)
  exact ⟨⟨_, t1, h1, fun _ hr => Instr.noConfusion (runs_unique r hr),
    fun _ hr => Instr.noConfusion (runs_unique r hr), rfl, rfl⟩,
    ⟨_, t2, 0, h2, runs_of (w := 0xF015) (by decide) (by decide)⟩,
    ⟨_, t3, 15, h3, runs_of (w := 0xFF18) (by decide) (by decide)⟩,
    ⟨_, t4, 1, h4, runs_of (w := 0xF107) (by decide) (by decide)⟩⟩

theorem witness_UnrecognizedOpcodeIsReportedAndPassedOver :
    (Fetches (State.reset.withFetchWord 16 0x5121) 0x5121 ∧ recognized 0x5121 = false) ∧
    (Fetches State.reset 0x0000 ∧ recognized 0x0000 = false) :=
  ⟨⟨⟨rfl, by decide, by decide⟩, by decide⟩, ⟨rfl, by decide, by decide⟩, by decide⟩

theorem witness_SysIsReportedAndPassedOver : (0x0E1#12 : Addr) ≠ 0x0E0#12 ∧ (0x0E1#12 : Addr) ≠ 0x0EE#12 := by decide

theorem witness_FaultedCoreIsStuck : ∃ (s : State) (c : FaultCause), s.fault = some c :=
  ⟨{ State.reset with fault := some .keyIndexOutOfRange }, _, rfl⟩

/-- Each of the four causes. -/
theorem witness_FaultSetsTheLatchUntilInitialize :
    step (State.reset.setPC 0xFFF) = .fault (.memoryOutOfBounds 0xFFF) ∧
    step ((stacked 16 State.reset).withFetchWord 16 0x2300) = .fault (.callStackOverflow 0x200) ∧
    step (State.reset.withFetchWord 16 0x00EE) = .fault (.callStackUnderflow 0x200) ∧
    step ((regs [(1, 0x10)]).withFetchWord 16 0xE19E) = .fault (.keyIndexOutOfRange 0x10) := ⟨rfl, rfl, rfl, rfl⟩

/-- Every fault condition at its boundary, on both sides. -/
theorem witness_InstructionsCompleteUnlessTheirFault :
    (faultCondition (.call 0x300) (stacked 15 State.reset) = none ∧
      faultCondition (.call 0x300) (stacked 16 State.reset) = some (.callStackOverflow 0x200)) ∧
    (faultCondition .ret (stacked 1 State.reset) = none ∧
      faultCondition .ret State.reset = some (.callStackUnderflow 0x200)) ∧
    (faultCondition (.drw 0 0 0) (State.reset.setI 0xFFFF) = none ∧
      faultCondition (.drw 0 0 15) (State.reset.setI 0xFF1) = none ∧
      faultCondition (.drw 0 0 15) (State.reset.setI 0xFF2) = some (.memoryOutOfBounds 0xFF2)) ∧
    (faultCondition (.ldB 0) (State.reset.setI 0xFFD) = none ∧
      faultCondition (.ldB 0) (State.reset.setI 0xFFE) = some (.memoryOutOfBounds 0xFFE)) ∧
    (faultCondition (.storeRegs 15) (State.reset.setI 0xFF0) = none ∧
      faultCondition (.loadRegs 15) (State.reset.setI 0xFF1) = some (.memoryOutOfBounds 0xFF1)) ∧
    (faultCondition (.skp 1) (regs [(1, 0x0F)]) = none ∧
      faultCondition (.sknp 1) (regs [(1, 0x10)]) = some (.keyIndexOutOfRange 0x10)) := by decide

/-- One instruction for each shape of target, and each side of the conditions inside `PCAfter`. -/
theorem witness_ProgramCounterFollowsTheTable :
    (∃ t, exec (.jpV0 0xFFF) (regs [(0, 0xFF)]) = .next t) ∧ (∃ t, exec .ret (stacked 16 State.reset) = .next t) ∧
    (∃ t, exec (.seImm 0 0x00) State.reset = .next t) ∧
    ((∃ t, exec (.skp 1) (press 15 (regs [(1, 0x0F)])) = .next t) ∧
      keyDown (press 15 (regs [(1, 0x0F)])) ((press 15 (regs [(1, 0x0F)])).readReg 1)) ∧
    ((∃ t, exec (.sknp 1) State.reset = .next t) ∧ ¬ keyDown State.reset (State.reset.readReg 1)) ∧
    ((∃ t, exec (.ldKey 15) (press 15 State.reset) = .next t) ∧ ∃ k, (press 15 State.reset).key.get k = true) ∧
    ((∃ t, exec (.ldKey 15) State.reset = .next t) ∧ ∀ k, State.reset.key.get k = false) :=
  ⟨⟨_, rfl⟩, ⟨_, rfl⟩, ⟨_, rfl⟩, ⟨⟨_, rfl⟩, 15, by decide, by decide⟩,
    ⟨⟨_, rfl⟩, fun ⟨k, _, hk⟩ => by rw [reset_has_no_key] at hk; cases hk⟩, ⟨⟨_, rfl⟩, 15, by decide⟩,
    ⟨_, rfl⟩, reset_has_no_key⟩

theorem witness_CallPushesTheNextAddress :
    (stacked 0 State.reset).sp.val < 16 ∧ (stacked 15 State.reset).sp.val < 16 ∧ (stacked 16 State.reset).sp.val = 16 := by
  decide

theorem witness_ReturnPopsTheLastEntry :
    0 < (stacked 1 State.reset).sp.val ∧ 0 < (stacked 16 State.reset).sp.val ∧ State.reset.sp.val = 0 := by decide

theorem witness_ReturnResumesAfterTheCall :
    ∃ t u : State, exec (.call 0x300) (stacked 15 State.reset) = .next t ∧ u.sp = t.sp ∧ u.stack = t.stack :=
  ⟨_, _, rfl, rfl, rfl⟩

/-- The premise `x ≠ 15` of the statements about VF. -/
theorem witness_AddWritesTheSumThenTheCarry : (0 : Reg) ≠ 15 := by decide
theorem witness_SubWritesTheDifferenceThenNoBorrow : (0 : Reg) ≠ 15 := by decide
theorem witness_SubnWritesTheReverseDifference : (0 : Reg) ≠ 15 := by decide
theorem witness_ShiftsMoveVxByOneThenTheBitShiftedOut : (14 : Reg) ≠ 15 := by decide

/-- A bit of V[x] can be set after RND only where the draw and the mask have it; the draw is any byte. -/
theorem witness_RndMasksAFreeByte : ((0xA7#8 &&& 0x0F#8).getLsbD 0 = true) ∧ (14 : Reg) ≠ 15 := by decide

theorem witness_StoreBcdWritesThreeDigits :
    (State.reset.setI 0xFFD).i.toNat ≤ 0xFFD ∧ (State.reset.setI 0xFFE).i.toNat > 0xFFD := by decide

theorem witness_RegisterDumpStoresV0ToVx :
    ((State.reset.setI 0xFF0).i.toNat + (15 : Reg).val ≤ 0xFFF ∧ (15 : Reg) ≤ 15) ∧
    ((State.reset.setI 0xFFF).i.toNat + (0 : Reg).val ≤ 0xFFF ∧ (0 : Reg) ≤ 0) ∧
    (State.reset.setI 0xFFF).i.toNat + (1 : Reg).val > 0xFFF := by decide

theorem witness_RegisterLoadFillsV0ToVx :
    ((State.reset.setI 0xFF0).i.toNat + (15 : Reg).val ≤ 0xFFF ∧ (15 : Reg) ≤ 15) ∧
    ((State.reset.setI 0xFFF).i.toNat + (0 : Reg).val ≤ 0xFFF ∧ (0 : Reg) < 1) ∧
    (State.reset.setI 0x1000).i.toNat + (0 : Reg).val > 0xFFF := by decide

theorem witness_DumpThenLoadRestoresTheRegisters :
    ∃ t u : State, exec (.storeRegs 15) ((regs [(15, 0x10)]).setI 0xFF0) = .next t ∧ u.mem = t.mem ∧ u.i = t.i :=
  ⟨_, _, rfl, rfl, rfl⟩

theorem witness_StoresAreSeenByTheNextFetch :
    (∃ t u : State, exec (.storeRegs 15) (State.reset.setI 0xFF0) = .next t ∧ (15 : Reg).val = (14 : Reg).val + 1 ∧
      u.mem = t.mem ∧ u.pc.toNat = (State.reset.setI 0xFF0).i.toNat + (14 : Reg).val) ∧
    (∃ t u : State, exec (.ldB 0) (State.reset.setI 0xFFD) = .next t ∧ u.mem = t.mem ∧ u.pc = (State.reset.setI 0xFFD).i) := by
  refine ⟨?_, ?_⟩
  · obtain ⟨t, ht, -⟩ := exists_next (o := exec (.storeRegs 15) (State.reset.setI 0xFF0)) (p := fun _ => true) (by decide)
    exact ⟨t, t.setPC 0xFFE, ht, rfl, rfl, rfl⟩
  · obtain ⟨t, ht, -⟩ := exists_next (o := exec (.ldB 0) (State.reset.setI 0xFFD)) (p := fun _ => true) (by decide)
    exact ⟨t, t.setPC 0xFFD, ht, rfl, rfl⟩

/-- Both access bounds; a pixel under the sprite and one beside it; a draw that erases (over a lit pixel) and one that
cannot (on a dark display). -/
theorem witness_DrawXorsTheSpriteAndFlagsErasure :
    ((0 : Fin 16).val = 0 ∧ (State.reset.setI 0xFF1).i.toNat + ((15 : Fin 16).val - 1) ≤ 0xFFF) ∧
    ((15 : Fin 16).val > 0 ∧ (State.reset.setI 0xFF2).i.toNat + ((15 : Fin 16).val - 1) > 0xFFF) ∧
    SpriteCovers State.reset 0 0 1 0 0 ∧ ¬ SpriteCovers State.reset 0 0 1 7 0 ∧
    (∃ t, exec (.drw 0 0 1) (lit 0 0 State.reset) = .next t ∧
      ∃ X Y, Display.pixel (lit 0 0 State.reset).disp X Y = true ∧ Display.pixel t.disp X Y = false) ∧
    (∃ t, exec (.drw 0 0 1) State.reset = .next t ∧
      ∀ X Y, Display.pixel State.reset.disp X Y = true → Display.pixel t.disp X Y = true) := by
  refine ⟨by decide, by decide, ⟨0, 0, by decide, by decide, by decide, by decide, by decide⟩, ?_, ?_, ⟨_, rfl, ?_⟩⟩
  · rintro ⟨c, r, hc, hr, hX, -, hb⟩
    have h7 : c = 7 := by simp at hX; omega
    have h0 : r = 0 := by omega
    subst h7 h0
    revert hb
    decide
  · obtain ⟨t, ht, hp⟩ := exists_next (o := exec (.drw 0 0 1) (lit 0 0 State.reset))
      (p := fun t => Display.pixel t.disp 0 0 = false) (by decide)
    exact ⟨t, ht, 0, 0, by decide, by simpa using hp⟩
  · intro X Y h
    rw [reset_is_dark] at h
    cases h

theorem witness_DrawingTwiceRestoresTheDisplay :
    ∃ t u : State, exec (.drw 0 1 1) State.reset = .next t ∧ t.i = State.reset.i ∧
      t.readReg 0 = State.reset.readReg 0 ∧ t.readReg 1 = State.reset.readReg 1 ∧ exec (.drw 0 1 1) t = .next u ∧
      ∀ X Y, Display.pixel State.reset.disp X Y = false := by
  exact ⟨_, _, rfl, rfl, rfl, rfl, rfl, reset_is_dark⟩

theorem witness_KeySkipsReadTheKeyLevel :
    ((regs [(1, 0x0F)]).readReg 1).toNat = (15 : Fin 16).val ∧ ((regs [(1, 0x10)]).readReg 1).toNat > 15 := by decide

theorem witness_KeyWaitTakesTheLowestKeyOrPolls :
    ((press 15 State.reset).key.get 15 = true ∧ ∀ j < (15 : Fin 16), (press 15 State.reset).key.get j = false) ∧
    ((press 0 State.reset).key.get 0 = true ∧ ∀ j < (0 : Fin 16), (press 0 State.reset).key.get j = false) ∧
    (Runs (State.reset.withFetchWord 16 0xFF0A) (.ldKey 15) ∧
      ∀ k : Fin 16, (State.reset.withFetchWord 16 0xFF0A).key.get k = false) :=
  ⟨by decide, by decide, runs_of (w := 0xFF0A) (by decide) (by decide), by decide⟩

/-- One form of each clause, one with the destination VF. -/
theorem witness_RegisterFormsChangeOnlyTheirDestination :
    (∃ t, exec (.addImm 15 0x01) State.reset = .next t) ∧ (∃ t, exec (.ldKey 0) (press 3 State.reset) = .next t) ∧
    (∃ t, exec (.sub 15 0) State.reset = .next t) ∧ (∃ t, exec (.rnd 15 0xFF) State.reset = .next t) ∧
    (∃ t, exec (.loadRegs 15) (State.reset.setI 0xFF0) = .next t) :=
  ⟨⟨_, rfl⟩, ⟨_, rfl⟩, ⟨_, rfl⟩, ⟨_, rfl⟩, ⟨_, rfl⟩⟩

theorem witness_ControlFormsChangeOnlyPcAndStack :
    (∃ t, exec (.jpV0 0xFFF) State.reset = .next t) ∧ (∃ t, exec (.skp 0) State.reset = .next t) ∧
    (∃ t, exec (.call 0x300) (stacked 15 State.reset) = .next t ∧ (14 : Nat) ≠ (stacked 15 State.reset).sp.val) ∧
    (∃ t, exec .ret (stacked 1 State.reset) = .next t) :=
  ⟨⟨_, rfl⟩, ⟨_, rfl⟩, ⟨_, rfl, by decide⟩, ⟨_, rfl⟩⟩

theorem witness_IndexAndTimerFormsChangeOnlyTheirTarget :
    (∃ t, exec (.addI 15) (State.reset.setI 0xFFFF) = .next t) ∧ (∃ t, exec (.ldDT 15) State.reset = .next t) ∧
    (∃ t, exec (.ldST 15) State.reset = .next t) := ⟨⟨_, rfl⟩, ⟨_, rfl⟩, ⟨_, rfl⟩⟩

/-- At the last legal base, with the address below the stored bytes and the one above. -/
theorem witness_StoringFormsChangeOnlyTheStoredBytes :
    ((∃ t, exec (.ldB 0) (State.reset.setI 0xFFD) = .next t) ∧ effectiveAddress (State.reset.setI 0xFFD) 0 = 0xFFD ∧
      0xFFC < 0xFFD ∧ 0xFFD + 3 ≤ 0x1000) ∧
    ((∃ t, exec (.storeRegs 15) (State.reset.setI 0xFF0) = .next t) ∧
      effectiveAddress (State.reset.setI 0xFF0) 0 = 0xFF0 ∧ 0xFEF < 0xFF0 ∧ 0xFF0 + (15 + 1) ≤ 0x1000) :=
  ⟨⟨⟨_, rfl⟩, rfl, by decide⟩, ⟨_, rfl⟩, rfl, by decide⟩

theorem witness_DisplayFormsChangeOnlyTheDisplayAndVF :
    (∃ t, exec .cls State.reset = .next t) ∧ (∃ t, exec (.drw 15 15 15) (State.reset.setI 0xFF1) = .next t) ∧
    (∃ t, exec (.sys 0x123) State.reset = .next t) := ⟨⟨_, rfl⟩, ⟨_, rfl⟩, ⟨_, rfl⟩⟩

/-- A flag writer, a form that names VF as its destination, and one that does not. -/
theorem witness_FlagWritersLeaveZeroOrOneInVF :
    ((∃ t, exec (.shr 15 0) (regs [(15, 0x03)]) = .next t) ∧
      ∃ x y, Instr.shr 15 0 ∈ [Instr.addReg x y, .sub x y, .shr x y, .subn x y, .shl x y]) ∧
    (∃ t, exec (.ldImm 15 0xAB) State.reset = .next t) ∧ (∃ t, exec (.addI 0) State.reset = .next t) ∧
    ¬ ((∃ x y, Instr.ldImm 15 0xAB ∈ [Instr.addReg x y, .sub x y, .shr x y, .subn x y, .shl x y]) ∨
      ∃ x y n, Instr.ldImm 15 0xAB = .drw x y n) :=
  ⟨⟨⟨_, rfl⟩, 15, 0, by decide⟩, ⟨_, rfl⟩, ⟨_, rfl⟩, by simp⟩

/-- A step that changes memory, one that changes the display, one that changes the stack. -/
theorem witness_EachSpaceIsWrittenOnlyByItsInstructions :
    (∃ s t, step s = .next t ∧ ∃ a, Memory.readByte t.mem a ≠ Memory.readByte s.mem a) ∧
    (∃ s t, step s = .next t ∧ t.disp ≠ s.disp) ∧ (∃ s t, step s = .next t ∧ (t.sp ≠ s.sp ∨ t.stack ≠ s.stack)) := by
  refine ⟨⟨((regs [(0, 0x09)]).setI 0x300).withFetchWord 16 0xF033, ?_⟩,
    ⟨(lit 5 5 State.reset).withFetchWord 16 0x00E0, ?_⟩, ⟨State.reset.withFetchWord 16 0x2300, ?_⟩⟩
  · obtain ⟨t, ht, hp⟩ := exists_next (o := run 0xF033 ((regs [(0, 0x09)]).setI 0x300))
      (p := fun t => Memory.readByte t.mem 0x302 = 0x09) (by decide)
    exact ⟨t, ht, 0x302, by rw [of_decide_eq_true hp]; decide⟩
  · obtain ⟨t, ht, hp⟩ := exists_next (o := run 0x00E0 (lit 5 5 State.reset))
      (p := fun t => Display.pixel t.disp 5 5 = false) (by decide)
    refine ⟨t, ht, fun h => ?_⟩
    rw [decide_eq_true_iff, h] at hp
    revert hp
    decide
  · obtain ⟨t, ht, hp⟩ := exists_next (o := run 0x2300 State.reset) (p := fun t => t.sp = 1) (by decide)
    exact ⟨t, ht, .inl (by rw [of_decide_eq_true hp]; decide)⟩

/-- The deepest stack, every entry at its bound, and a step to the highest PC. -/
theorem witness_StepKeepsTheInvariant :
    ∃ s t : State, Inv s ∧ step s = .next t ∧ t.pc = 0x10FE := by
  let s : State := { regs [(0, 0xFF)] with sp := 16, stack := Vector.replicate 16 0x1000#16 }
  obtain ⟨t, ht, hp⟩ := exists_next (o := run 0xBFFF s) (p := fun t => t.pc = 0x10FE) (by decide)
  refine ⟨s.withFetchWord 16 0xBFFF, t, ⟨by decide, by decide, fun k h _ => ?_⟩, ht, of_decide_eq_true hp⟩
  show ((Vector.replicate 16 0x1000#16)[k]'h).toNat ≤ 0x1000
  rw [Vector.getElem_replicate]
  decide

theorem witness_EveryHostMoveKeepsTheInvariant :
    (InvUnlessFaulted State.reset ∧ State.reset.fault = none) ∧
    InvUnlessFaulted { State.reset with fault := some .memoryOutOfBounds, pc := 0xFFFF } :=
  ⟨⟨fun _ => ⟨by decide, by decide, fun k _ hk => by simp [State.reset] at hk⟩, rfl⟩, fun h => by cases h⟩

theorem witness_PcStaysEvenWhileTargetsAreEven :
    ∃ s t : State, EvenPC s ∧ (∀ i, Runs s i → EvenTarget i (ticked s)) ∧ step s = .next t := by
  obtain ⟨t, ht, -⟩ := exists_next (o := run 0x2300 State.reset) (p := fun _ => true) (by decide)
  refine ⟨State.reset.withFetchWord 16 0x2300, t, ⟨by decide, fun k _ hk => absurd hk (Nat.not_lt_zero k)⟩,
    fun i hi => ?_, ht⟩
  rw [← runs_unique (runs_of (w := 0x2300) (by decide) (by decide) :
    Runs (State.reset.withFetchWord 16 0x2300) (.call 0x300)) hi]
  show (0x300#12 : Addr).toNat % 2 = 0
  decide

theorem witness_InitializeGivesTheResetValues :
    hostInitialize { State.reset with fault := some .memoryOutOfBounds } ∈
      [State.reset, hostInitialize { State.reset with fault := some .memoryOutOfBounds }] ∧ 80 ≤ 0xFFF := by
  refine ⟨?_, by decide⟩
  simp

/-- The longest program, its last byte and the first address it does not reach; one byte more. -/
theorem witness_LoadProgramCopiesItsBytes :
    ((List.replicate 3584 0x12#8).length ≤ 3584 ∧ (List.replicate 3584 0x12#8)[3583]? = some 0x12#8 ∧ 0x1FF < 0x200 ∧
      0x200 + (List.replicate 3584 0x12#8).length ≤ 0x1000) ∧
    (List.replicate 3585 0x12#8).length > 3584 := by
  rw [List.length_replicate, List.length_replicate, List.getElem?_replicate]
  decide

theorem witness_LoadedProgramIsFetchedAtReset :
    (List.replicate 3582 0x12#8).length ≤ 3582 ∧ ([] : List Byte).length ≤ 3582 :=
  ⟨by rw [List.length_replicate], by decide⟩

theorem witness_SetKeyWritesOneFlag : (15 : Fin 16).val = 15 ∧ (0 : Fin 16) ≠ 15 ∧ 16 > 15 := by decide

theorem witness_SelfJumpIsTheEndOfARun : RunEnded (State.reset.withFetchWord 16 0x1200) :=
  ⟨0x200, runs_of (w := 0x1200) (by decide) (by decide), by decide⟩

/-- The last two bytes, and no byte at all. -/
theorem witness_ZeroMemoryIsWalkedThroughToTheEnd :
    (∃ s : State, s.fault = none ∧ s.pc.toNat + 2 * 1 = 0x1000 ∧
      ∀ a, s.pc.toNat ≤ a → a < 0x1000 → Memory.readByte s.mem a = 0) ∧
    (∃ s : State, s.fault = none ∧ s.pc.toNat + 2 * 0 = 0x1000 ∧
      ∀ a, s.pc.toNat ≤ a → a < 0x1000 → Memory.readByte s.mem a = 0) := by
  refine ⟨⟨State.reset.setPC 0xFFE, rfl, rfl, fun a h h' => ?_⟩, ⟨State.reset.setPC 0x1000, rfl, rfl, fun a h h' => ?_⟩⟩
  · have h : 0xFFE ≤ a := h
    obtain rfl | rfl : a = 0xFFE ∨ a = 0xFFF := by omega
    · rfl
    · rfl
  · have h : 0x1000 ≤ a := h
    omega

end Sys2Proof.Tests
end

/-! # State: the invariant, the evenness of `PC`, the flag register, and the reset values (10_state.md)

One inversion of `exec`, `exec_move`, says everything an instruction can do to `PC`, the call stack and memory. The
invariant and the evenness of `PC` are each a short case split over it. -/

namespace Sys2Proof.Machine

/-! ## Loading a block of registers leaves the rest of the state -/

@[simp] theorem State.writeRegsFrom_pc (s : State) (k : Nat) (bs : List Byte) : (s.writeRegsFrom k bs).pc = s.pc := by
  rw [State.writeRegsFrom_eq]

@[simp] theorem State.writeRegsFrom_sp (s : State) (k : Nat) (bs : List Byte) : (s.writeRegsFrom k bs).sp = s.sp := by
  rw [State.writeRegsFrom_eq]

@[simp] theorem State.writeRegsFrom_stack (s : State) (k : Nat) (bs : List Byte) :
    (s.writeRegsFrom k bs).stack = s.stack := by
  rw [State.writeRegsFrom_eq]

@[simp] theorem State.writeRegsFrom_mem (s : State) (k : Nat) (bs : List Byte) :
    (s.writeRegsFrom k bs).mem = s.mem := by
  rw [State.writeRegsFrom_eq]

/-! ## The next state of each meaning that can stop or choose -/

section
variable {s t : State}

theorem State.push_eq_some {ret : Word} (h : s.push ret = some t) : ∃ hsp : s.sp.val < 16,
    t = { s with stack := s.stack.set s.sp.val ret hsp, sp := ⟨s.sp.val + 1, by omega⟩ } := by
  rcases s.push_cases ret with ⟨-, hnone⟩ | ⟨hsp, hsome⟩
  · simp [hnone] at h
  · exact ⟨hsp, Option.some.inj (h.symm.trans hsome)⟩

theorem State.pop_eq_some {target : Word} (h : s.pop = some (target, t)) : ∃ hsp : 0 < s.sp.val,
    target = s.stack[s.sp.val - 1]'(by omega) ∧ t = { s with sp := ⟨s.sp.val - 1, by omega⟩ } := by
  rcases s.pop_cases with ⟨-, hnone⟩ | ⟨hsp, hsome⟩
  · simp [hnone] at h
  · exact ⟨hsp, Prod.mk.inj (Option.some.inj (h.symm.trans hsome))⟩

/-- A push changes the stack alone. -/
theorem State.push_mem {ret : Word} (h : s.push ret = some t) : t.mem = s.mem := by
  obtain ⟨_, rfl⟩ := State.push_eq_some h
  rfl

theorem State.readReg_push {ret : Word} (h : s.push ret = some t) (x : Reg) : t.readReg x = s.readReg x := by
  obtain ⟨_, rfl⟩ := State.push_eq_some h
  rfl

/-- A pop changes the stack pointer alone. -/
theorem State.pop_mem {target : Word} (h : s.pop = some (target, t)) : t.mem = s.mem := by
  obtain ⟨_, -, rfl⟩ := State.pop_eq_some h
  rfl

theorem State.readReg_pop {target : Word} (h : s.pop = some (target, t)) (x : Reg) : t.readReg x = s.readReg x := by
  obtain ⟨_, -, rfl⟩ := State.pop_eq_some h
  rfl

theorem execCall_next {addr : Addr} (h : execCall addr s = .next t) :
    ∃ u, s.push (s.pc + 2) = some u ∧ t = u.setPC (addrOperand addr) := by
  unfold execCall at h
  split at h
  · cases h
  · cases h
    exact ⟨_, ‹_›, rfl⟩

theorem execReturn_next (h : execReturn s = .next t) : ∃ target u, s.pop = some (target, u) ∧ t = u.setPC target := by
  unfold execReturn at h
  split at h
  · cases h
  · cases h
    exact ⟨_, _, ‹_›, rfl⟩

theorem skipOnKey_next {x : Reg} {pressed : Bool} (h : skipOnKey x pressed s = .next t) : ∃ c, t = s.skipIf c := by
  unfold skipOnKey at h
  split at h
  · cases h
  · cases h
    exact ⟨_, rfl⟩

theorem execLdKey_next {x : Reg} (h : execLdKey x s = .next t) : t = s ∨ ∃ b, t = (s.writeReg x b).advance := by
  unfold execLdKey at h
  split at h
  · cases h
    exact .inl rfl
  · cases h
    exact .inr ⟨_, rfl⟩

theorem storeAtI_next {bytes : List Byte} (h : storeAtI bytes s = .next t) :
    (bytes.length = 0 ∨ s.i.toNat + (bytes.length - 1) ≤ 0xFFF) ∧
      t = (s.setMem (Memory.writeBytes s.mem (effectiveAddress s 0) bytes)).advance := by
  obtain ⟨hin, hnext⟩ := checkAccess_eq_next h
  cases hnext
  exact ⟨hin, rfl⟩

theorem execLoadRegs_next {x : Reg} (h : execLoadRegs x s = .next t) :
    t = (s.writeRegsFrom 0 (Memory.readBytes s.mem (effectiveAddress s 0) (x.val + 1))).advance := by
  cases (checkAccess_eq_next h).2
  rfl

theorem execDrw_next {x y : Reg} {n : Fin 16} (h : execDrw x y n s = .next t) :
    ∃ d f, t = ((s.setDisp d).writeVF f).advance := by
  cases (checkAccess_eq_next h).2
  exact ⟨_, _, rfl⟩

end

end Sys2Proof.Machine

namespace Sys2Proof.Safety

open Sys2Proof.Machine

/-! ## What an instruction can do to `PC`, the call stack and memory -/

/-- `t` follows `s` when `i` runs, as far as `PC`, the call stack and memory go. -/
inductive Move (s : State) : Instr → State → Prop where
  /-- Stack and memory stay; `PC` stays (a key wait), goes to the next instruction or skips it. -/
  | sequential {i : Instr} {t : State} (hsp : t.sp = s.sp) (hstack : t.stack = s.stack) (hmem : t.mem = s.mem)
      (hpc : t.pc = s.pc ∨ t.pc = s.pc + 2 ∨ t.pc = s.pc + 4) : Move s i t
  /-- A block that lies inside memory is stored at `I`. -/
  | store {i : Instr} (bytes : List Byte) (hin : s.i.toNat + bytes.length ≤ Config.memSize) :
      Move s i (s.setMem (Memory.writeBytes s.mem (effectiveAddress s 0) bytes)).advance
  | jump (addr : Addr) : Move s (.jp addr) (s.setPC (addrOperand addr))
  | jumpV0 (addr : Addr) : Move s (.jpV0 addr) (s.setPC (addrOperand addr + byteOperand (s.readReg 0)))
  | call (addr : Addr) {u : State} (hpush : s.push (s.pc + 2) = some u) :
      Move s (.call addr) (u.setPC (addrOperand addr))
  | ret {target : Word} {u : State} (hpop : s.pop = some (target, u)) : Move s .ret (u.setPC target)

/-- An unrecognized word, SYS among them, only moves `PC` on (R85). -/
theorem reportUnrecognized_move (w : Word) (s : State) (i : Instr) : Move s i (reportUnrecognized w s) :=
  .sequential rfl rfl rfl (.inr (.inl rfl))

/-- A skip moves `PC` alone. -/
theorem skipIf_move (c : Bool) (s : State) (i : Instr) : Move s i (s.skipIf c) := by
  refine .sequential (by simp) (by simp) (by simp) (.inr ?_)
  cases c
  · exact .inl rfl
  · exact .inr rfl

theorem execLdKey_move {x : Reg} {s t : State} (h : execLdKey x s = .next t) : Move s (.ldKey x) t := by
  rcases execLdKey_next h with rfl | ⟨b, rfl⟩
  · exact .sequential rfl rfl rfl (.inl rfl)
  · exact .sequential rfl rfl rfl (.inr (.inl rfl))

theorem storeAtI_move {bytes : List Byte} {s t : State} (i : Instr) (hpos : 0 < bytes.length)
    (h : storeAtI bytes s = .next t) : Move s i t := by
  obtain ⟨hin, rfl⟩ := storeAtI_next h
  exact .store bytes (by simp only [Config.memSize]; omega)

/-- Everything an instruction that completes can do to `PC`, the call stack and memory. -/
theorem exec_move {i : Instr} {s t : State} (h : exec i s = .next t) : Move s i t := by
  cases i with
  | jp addr => cases h; exact .jump addr
  | jpV0 addr => cases h; exact .jumpV0 addr
  | call addr =>
    obtain ⟨u, hpush, rfl⟩ := execCall_next h
    exact .call addr hpush
  | ret =>
    obtain ⟨target, u, hpop, rfl⟩ := execReturn_next h
    exact .ret hpop
  | seImm x kk | sneImm x kk | seReg x y | sneReg x y => cases h; exact skipIf_move _ s _
  | skp x | sknp x =>
    obtain ⟨c, rfl⟩ := skipOnKey_next h
    exact skipIf_move c s _
  | ldKey x => exact execLdKey_move h
  | ldB x => exact storeAtI_move _ (by simp [bcdDigits]) h
  | storeRegs x => exact storeAtI_move _ (by simp [length_registerBlock]) h
  | loadRegs x =>
    obtain rfl := execLoadRegs_next h
    exact .sequential (by simp) (by simp) (by simp) (.inr (.inl (by simp)))
  | drw x y n =>
    obtain ⟨d, f, rfl⟩ := execDrw_next h
    exact .sequential rfl rfl rfl (.inr (.inl rfl))
  | sys addr => cases h; exact reportUnrecognized_move _ s _
  | cls | ldImm x kk | addImm x kk | ldReg x y | or x y | and x y | xor x y | addReg x y | sub x y | shr x y
  | subn x y | shl x y | rnd x kk | ldI addr | addI x | ldF x | ldFromDT x | ldDT x | ldST x =>
    cases h
    exact .sequential rfl rfl rfl (.inr (.inl rfl))

/-- A step that answers a next state fetched inside memory, and moved as the instruction it ran does, or as SYS does
when the word was unrecognized. -/
theorem step_move {s t : State} (h : step s = .next t) :
    s.pc.toNat ≤ 0xFFE ∧ ∃ i, (Runs s i ∨ ∃ addr, i = .sys addr) ∧ Move s.beginStep i t := by
  obtain ⟨hfault, w, hfetch, hrun⟩ := step_next_cases h
  obtain ⟨hpc, hw⟩ := (State.fetch_eq_some _ _).mp hfetch
  refine ⟨hpc, ?_⟩
  rcases hrun with ⟨i, hi, hexec⟩ | ⟨e, -, rfl⟩
  · exact ⟨i, .inl ⟨w, ⟨hfault, hpc, hw.symm⟩, hi⟩, exec_move hexec⟩
  · exact ⟨.sys 0, .inr ⟨0, rfl⟩, reportUnrecognized_move w _ _⟩

/-! ## Properties of the live stack entries (R14) -/

/-- Every live stack entry has the property `P`. -/
def LiveEntries (P : Word → Prop) (s : State) : Prop :=
  ∀ k (h : k < 16), k < s.sp.val → P (s.stack[k]'h)

theorem inv_iff (s : State) : Inv s ↔
    Memory.wf s.mem = true ∧ s.pc.toNat ≤ 0x10FE ∧ LiveEntries (fun a => a.toNat ≤ 0x1000) s := Iff.rfl

theorem evenPC_iff (s : State) : EvenPC s ↔
    s.pc.toNat % 2 = 0 ∧ LiveEntries (fun a => a.toNat % 2 = 0) s := Iff.rfl

section
variable {P : Word → Prop} {s t : State}

theorem liveEntries_reset : LiveEntries P State.reset :=
  fun k _ hk => absurd hk (Nat.not_lt_zero k)

theorem LiveEntries.of_stack_eq (h : LiveEntries P s) (hsp : t.sp = s.sp) (hstack : t.stack = s.stack) :
    LiveEntries P t := by
  unfold LiveEntries
  rw [hsp, hstack]
  exact h

/-- `PC` is no stack entry. -/
@[simp] theorem liveEntries_setPC {p : Word} : LiveEntries P (s.setPC p) ↔ LiveEntries P s := Iff.rfl

/-- The entries after a push are those before it and the word pushed. -/
theorem LiveEntries.push {ret : Word} (h : LiveEntries P s) (hret : P ret) (hpush : s.push ret = some t) :
    LiveEntries P t := by
  obtain ⟨hsp, rfl⟩ := State.push_eq_some hpush
  intro k hk hlive
  rw [Vector.getElem_set]
  split
  · exact hret
  · exact h k hk (by simp only at hlive; omega)

/-- The word popped was live, and the entries that stay were too. -/
theorem LiveEntries.pop {target : Word} (h : LiveEntries P s) (hpop : s.pop = some (target, t)) :
    P target ∧ LiveEntries P t := by
  obtain ⟨hsp, rfl, rfl⟩ := State.pop_eq_some hpop
  exact ⟨h _ _ (by omega), fun k hk hlive => h k hk (by simp only at hlive; omega)⟩

end

/-! ## Targets as numbers -/

@[simp] theorem toNat_addrOperand (addr : Addr) : (addrOperand addr).toNat = addr.toNat := by
  simp only [addrOperand, BitVec.toNat_setWidth]
  omega

/-- The target of `JP V0` is the exact sum: it never wraps (R104). -/
theorem toNat_jumpV0_target (addr : Addr) (b : Byte) :
    (addrOperand addr + byteOperand b).toNat = addr.toNat + b.toNat := by
  simp only [BitVec.toNat_add, toNat_addrOperand, byteOperand, BitVec.toNat_setWidth]
  omega

/-! ## The invariant -/

/-- A move made from where a fetch succeeds keeps the invariant: the highest `PC` it can leave is the sum of `JP V0`,
the highest return address it can push is 0x1000. -/
theorem Inv.move {i : Instr} {s t : State} (h : Inv s) (hfetch : s.pc.toNat ≤ 0xFFE) (hmove : Move s i t) : Inv t := by
  obtain ⟨hwf, -, hlive⟩ := (inv_iff s).mp h
  rw [inv_iff]
  cases hmove with
  | sequential hsp hstack hmem hpc =>
    refine ⟨hmem ▸ hwf, ?_, hlive.of_stack_eq hsp hstack⟩
    rcases hpc with hpc | hpc | hpc <;> rw [hpc] <;> bv_omega
  | store bytes hin =>
    refine ⟨Memory.writeBytes_wf _ _ hwf hin, ?_, hlive⟩
    rw [State.advance_pc, State.setMem_pc]
    bv_omega
  | jump addr =>
    refine ⟨hwf, ?_, hlive⟩
    rw [State.setPC_pc, toNat_addrOperand]
    omega
  | jumpV0 addr =>
    refine ⟨hwf, ?_, hlive⟩
    rw [State.setPC_pc, toNat_jumpV0_target]
    omega
  | call addr hpush =>
    have hret : (s.pc + 2).toNat ≤ 0x1000 := by bv_omega
    refine ⟨?_, ?_, liveEntries_setPC.mpr (hlive.push hret hpush)⟩
    · rw [State.setPC_mem, State.push_mem hpush]
      exact hwf
    · rw [State.setPC_pc, toNat_addrOperand]
      omega
  | ret hpop =>
    obtain ⟨htarget, hrest⟩ := hlive.pop hpop
    refine ⟨?_, ?_, liveEntries_setPC.mpr hrest⟩
    · rw [State.setPC_mem, State.pop_mem hpop]
      exact hwf
    · rw [State.setPC_pc]
      omega

/-- The tick at the start of a step touches nothing the invariant speaks of. -/
theorem Inv.beginStep {s : State} (h : Inv s) : Inv s.beginStep := h

/-- Settles O49: a step moves as its instruction does, and every move keeps the invariant. -/
theorem stepKeepsTheInvariant : Obligations.StepKeepsTheInvariant := by
  intro s t hinv hstep
  obtain ⟨hfetch, i, -, hmove⟩ := step_move hstep
  exact hinv.beginStep.move hfetch hmove

/-! ## Even `PC` (C3) -/

/-- A move whose own target, if it has one, is even keeps `PC` and the live stack entries even. -/
theorem EvenPC.move {i : Instr} {s t : State} (h : EvenPC s) (htarget : EvenTarget i s) (hmove : Move s i t) :
    EvenPC t := by
  obtain ⟨hpc, hlive⟩ := (evenPC_iff s).mp h
  have hnext : (s.pc + 2).toNat % 2 = 0 := by bv_omega
  have hskip : (s.pc + 4).toNat % 2 = 0 := by bv_omega
  rw [evenPC_iff]
  cases hmove with
  | sequential hsp hstack _ hmoved =>
    refine ⟨?_, hlive.of_stack_eq hsp hstack⟩
    rcases hmoved with hmoved | hmoved | hmoved <;> rwa [hmoved]
  | store bytes hin => exact ⟨hnext, hlive⟩
  | jump addr => exact ⟨(congrArg (· % 2) (toNat_addrOperand addr)).trans htarget, hlive⟩
  | jumpV0 addr => exact ⟨(congrArg (· % 2) (toNat_jumpV0_target addr _)).trans htarget, hlive⟩
  | call addr hpush =>
    exact ⟨(congrArg (· % 2) (toNat_addrOperand addr)).trans htarget, liveEntries_setPC.mpr (hlive.push hnext hpush)⟩
  | ret hpop =>
    obtain ⟨hpopped, hrest⟩ := hlive.pop hpop
    exact ⟨hpopped, liveEntries_setPC.mpr hrest⟩

theorem EvenPC.beginStep {s : State} (h : EvenPC s) : EvenPC s.beginStep := h

/-- Settles O51: a step moves as its instruction does, and a move with an even target keeps `PC` even. -/
theorem pcStaysEvenWhileTargetsAreEven : Obligations.PcStaysEvenWhileTargetsAreEven := by
  intro s t heven htargets hstep
  obtain ⟨-, i, hruns, hmove⟩ := step_move hstep
  have htarget : EvenTarget i (ticked s) := by
    rcases hruns with hruns | ⟨addr, rfl⟩
    · exact htargets i hruns
    · exact trivial
  exact heven.beginStep.move htarget hmove

/-! ## The flag register (R11, D5) -/

/-- The instructions that write a flag into VF (D5). -/
def writesFlag : Instr → Bool
  | .addReg _ _ | .sub _ _ | .shr _ _ | .subn _ _ | .shl _ _ | .drw _ _ _ => true
  | _ => false

theorem writesFlag_iff (i : Instr) : writesFlag i = true ↔
    (∃ x y, i ∈ [Instr.addReg x y, .sub x y, .shr x y, .subn x y, .shl x y]) ∨ ∃ x y n, i = .drw x y n := by
  cases i <;> simp [writesFlag]

theorem flagByte_eq_zero_or_one (f : Bool) : flagByte f = 0 ∨ flagByte f = 1 := by
  cases f
  · exact .inl rfl
  · exact .inr rfl

/-- After a flag is written, VF is 0 or 1. -/
theorem readReg_vf_writeVF (s : State) (f : Bool) :
    (s.writeVF f).readReg 15 = 0 ∨ (s.writeVF f).readReg 15 = 1 := by
  rw [State.readReg_writeVF, if_pos rfl]
  exact flagByte_eq_zero_or_one f

/-- The six flag writers write VF last. -/
theorem exec_vf_of_writesFlag {i : Instr} {s t : State} (hi : writesFlag i = true) (h : exec i s = .next t) :
    t.readReg 15 = 0 ∨ t.readReg 15 = 1 := by
  rcases (writesFlag_iff i).mp hi with ⟨x, y, hmem⟩ | ⟨x, y, n, rfl⟩
  · simp only [List.mem_cons, List.not_mem_nil, or_false] at hmem
    rcases hmem with rfl | rfl | rfl | rfl | rfl <;> cases h <;> exact readReg_vf_writeVF _ _
  · obtain ⟨d, f, rfl⟩ := execDrw_next h
    exact readReg_vf_writeVF _ _

/-- The destination `x` of an instruction that writes a register but no flag; of `LD Vx, [I]` the highest one. -/
def destination : Instr → Option Reg
  | .ldImm x _ | .addImm x _ | .ldReg x _ | .or x _ | .and x _ | .xor x _ | .rnd x _ | .ldFromDT x | .ldKey x
  | .loadRegs x => some x
  | _ => none

theorem exists_of_destination_vf {i : Instr} (h : destination i = some 15) :
    ∃ y kk, i ∈ [Instr.ldImm 15 kk, .addImm 15 kk, .ldReg 15 y, .or 15 y, .and 15 y, .xor 15 y, .rnd 15 kk,
      .ldFromDT 15, .ldKey 15, .loadRegs 15] := by
  cases i <;> simp_all [destination]

theorem execLdKey_vf {x : Reg} {s t : State} (hx : x ≠ 15) (h : execLdKey x s = .next t) :
    t.readReg 15 = s.readReg 15 := by
  rcases execLdKey_next h with rfl | ⟨b, rfl⟩
  · rfl
  · exact State.readReg_writeReg_other s b hx.symm

/-- A block loaded into the registers up to `x` reaches VF only when `x` is 15 (R145). -/
theorem execLoadRegs_vf {x : Reg} {s t : State} (hx : x ≠ 15) (h : execLoadRegs x s = .next t) :
    t.readReg 15 = s.readReg 15 := by
  have hlt : x.val + 1 ≤ (15 : Reg).val := by
    have := Fin.val_ne_of_ne hx
    omega
  obtain rfl := execLoadRegs_next h
  rw [State.readReg_advance, State.readReg_writeRegsFrom, if_pos (Nat.zero_le _),
    List.getElem?_eq_none (by simpa using hlt), Option.getD_none]

/-- An instruction that writes no flag leaves VF alone unless its destination is 15. -/
theorem exec_vf_of_not_writesFlag {i : Instr} {s t : State} (hi : writesFlag i = false)
    (hdest : destination i ≠ some 15) (h : exec i s = .next t) : t.readReg 15 = s.readReg 15 := by
  cases i with
  | addReg x y | sub x y | shr x y | subn x y | shl x y | drw x y n => cases hi
  | ldImm x kk | addImm x kk | ldReg x y | or x y | and x y | xor x y | rnd x kk | ldFromDT x =>
    have hx : 15 ≠ x := fun hx => hdest (congrArg some hx.symm)
    cases h
    exact State.readReg_writeReg_other _ _ hx
  | ldKey x => exact execLdKey_vf (fun hx => hdest (congrArg some hx)) h
  | loadRegs x => exact execLoadRegs_vf (fun hx => hdest (congrArg some hx)) h
  | seImm x kk | sneImm x kk | seReg x y | sneReg x y => cases h; exact State.readReg_skipIf _ s 15
  | skp x | sknp x =>
    obtain ⟨c, rfl⟩ := skipOnKey_next h
    exact State.readReg_skipIf c s 15
  | call addr =>
    obtain ⟨u, hpush, rfl⟩ := execCall_next h
    exact State.readReg_push hpush 15
  | ret =>
    obtain ⟨target, u, hpop, rfl⟩ := execReturn_next h
    exact State.readReg_pop hpop 15
  | ldB x | storeRegs x =>
    obtain ⟨-, rfl⟩ := storeAtI_next h
    rfl
  | sys addr | cls | jp addr | jpV0 addr | ldI addr | ldDT x | ldST x | addI x | ldF x => cases h; rfl

/-- Settles O46: the flag writers write VF last, and every other instruction writes at most its destination. -/
theorem flagWritersLeaveZeroOrOneInVF : Obligations.FlagWritersLeaveZeroOrOneInVF := by
  intro i s t h
  split
  next hwriter => exact exec_vf_of_writesFlag ((writesFlag_iff i).mpr hwriter) h
  next hother =>
    have hi : writesFlag i = false := by rwa [← writesFlag_iff, Bool.not_eq_true] at hother
    by_cases hdest : destination i = some 15
    · exact .inr (exists_of_destination_vf hdest)
    · exact .inl (exec_vf_of_not_writesFlag hi hdest h)

/-! ## Reset (R25) -/

/-- Settles O48: memory lists nothing, `PC` is 0x200 and no stack entry is live. -/
theorem invariantHoldsAtReset : Obligations.InvariantHoldsAtReset :=
  ⟨(inv_iff _).mpr ⟨Memory.wf_reset, by decide, liveEntries_reset⟩,
    (evenPC_iff _).mpr ⟨by decide, liveEntries_reset⟩⟩

/-- Above the font table an unlisted address reads 0 (R25). -/
theorem readByte_nil_above_font {a : Nat} (h : 80 ≤ a) : Memory.readByte [] a = 0 :=
  List.getD_eq_default _ _ h

/-- Below 0x050 unlisted memory reads as the font table (R24, R25). -/
theorem readBytes_nil_font : Memory.readBytes [] 0 80 = fontTable := by decide

/-- The reset state and the state that `hostInitialize` leaves differ at most in the model's count of draws. -/
theorem eq_reset_withDraws {s r : State} (h : r ∈ [State.reset, hostInitialize s]) :
    ∃ n, r = { State.reset with draws := n } := by
  simp only [List.mem_cons, List.not_mem_nil, or_false] at h
  rcases h with rfl | rfl
  · exact ⟨0, rfl⟩
  · exact ⟨s.draws, rfl⟩

/-- Settles O52: both states are the reset values, whatever the count of draws. -/
theorem initializeGivesTheResetValues : Obligations.InitializeGivesTheResetValues := by
  intro s r hr
  obtain ⟨n, rfl⟩ := eq_reset_withDraws hr
  have hreg (x : Reg) : State.reset.readReg x = 0 := by
    simp [State.readReg, State.reset, Vector.get_eq_getElem]
  have hstack (k : Nat) (hk : k < 16) : State.reset.stack[k]? = some 0 := by
    simp [State.reset, hk]
  have hkey (k : Fin 16) : State.reset.key.get k = false := by
    simp [State.reset, Vector.get_eq_getElem]
  exact ⟨hreg, rfl, rfl, rfl, hstack, rfl, rfl, Display.pixel_blank, hkey, rfl, readBytes_nil_font,
    fun _ => readByte_nil_above_font⟩

end Sys2Proof.Safety

/-! # Memory: stored bytes are fetched as stored, and which step may write which space (20_memory.md)

A completed store is read back through one lemma, `readByte_of_storeAtI`. What a step leaves alone is `WritesOwnSpaces`,
proved by one case split over the instructions. -/

namespace Sys2Proof.Machine

/-! ## Reading back what was stored at `I` (R44, R52) -/

section
variable {bytes : List Byte} {s t u : State} {k : Nat}

/-- A byte of a stored block stands at its effective address. -/
theorem readByte_of_storeAtI {b : Byte} (h : storeAtI bytes s = .next t) (hb : bytes[k]? = some b) :
    Memory.readByte t.mem (s.i.toNat + k) = b := by
  obtain ⟨-, rfl⟩ := storeAtI_next h
  simp [effectiveAddress, Memory.readByte_writeBytes, hb]

/-- A fetch inside the stored block answers two bytes of it, whatever else the fetching state holds. -/
theorem fetch_of_storeAtI {hi lo : Byte} (h : storeAtI bytes s = .next t) (hhi : bytes[k]? = some hi)
    (hlo : bytes[k + 1]? = some lo) (hmem : u.mem = t.mem) (hpc : u.pc.toNat = s.i.toNat + k) :
    u.fetch = some (hi ++ lo) := by
  have hlen : k + 1 < bytes.length := (List.getElem?_eq_some_iff.mp hlo).1
  obtain ⟨hin, -⟩ := storeAtI_next h
  rw [State.fetch_eq_some]
  refine ⟨by omega, ?_⟩
  rw [hmem, hpc, Nat.add_assoc, readByte_of_storeAtI h hhi, readByte_of_storeAtI h hlo]
  rfl

end

/-- Settles O34: both instructions store their block through `storeAtI`, and the fetch reads two bytes of the block. -/
theorem storesAreSeenByTheNextFetch : Obligations.StoresAreSeenByTheNextFetch := by
  refine ⟨fun x k l s t u h hkl hlx hmem hpc => ?_, fun x s t u h hmem hpc => ?_⟩
  · have hkx : k ≤ x := Fin.le_def.mpr (by have := Fin.le_def.mp hlx; omega)
    have hhi := getElem?_registerBlock s x k hkx
    have hlo := getElem?_registerBlock s x l hlx
    rw [hkl] at hlo
    exact fetch_of_storeAtI h hhi hlo hmem hpc
  · exact fetch_of_storeAtI (k := 0) h rfl rfl hmem (congrArg BitVec.toNat hpc)

end Sys2Proof.Machine

namespace Sys2Proof.Safety

open Sys2Proof.Machine

/-! ## Which instruction writes which space (R14, R21, R40, R153) -/

/-- Keys and latch read in `t` as in `s`, and each of memory, display and stack does too, unless one of the
instructions that write it is among `ran`. -/
structure WritesOwnSpaces (ran : Instr → Prop) (s t : State) : Prop where
  key : t.key = s.key
  fault : t.fault = s.fault
  mem : t.mem = s.mem ∨ ∃ x, ran (.ldB x) ∨ ran (.storeRegs x)
  disp : t.disp = s.disp ∨ ran .cls ∨ ∃ x y n, ran (.drw x y n)
  stack : (t.sp = s.sp ∧ t.stack = s.stack) ∨ ran .ret ∨ ∃ addr, ran (.call addr)

section
variable {ran : Instr → Prop} {s t : State}

/-- A state that keeps all five spaces. -/
theorem WritesOwnSpaces.of_eq (hkey : t.key = s.key) (hfault : t.fault = s.fault) (hmem : t.mem = s.mem)
    (hdisp : t.disp = s.disp) (hsp : t.sp = s.sp) (hstack : t.stack = s.stack) : WritesOwnSpaces ran s t :=
  ⟨hkey, hfault, .inl hmem, .inl hdisp, .inl ⟨hsp, hstack⟩⟩

/-- An unrecognized word, SYS among them, writes none of the spaces (R85). -/
theorem reportUnrecognized_writesOwnSpaces (w : Word) (s : State) :
    WritesOwnSpaces ran s (reportUnrecognized w s) :=
  .of_eq rfl rfl rfl rfl rfl rfl

theorem skipIf_writesOwnSpaces (c : Bool) (s : State) : WritesOwnSpaces ran s (s.skipIf c) :=
  .of_eq (by simp) (by simp) (by simp) (by simp) (by simp) (by simp)

/-- A block stored at `I` changes memory alone. -/
theorem storeAtI_writesOwnSpaces {bytes : List Byte} (hran : ∃ x, ran (.ldB x) ∨ ran (.storeRegs x))
    (h : storeAtI bytes s = .next t) : WritesOwnSpaces ran s t := by
  obtain ⟨-, rfl⟩ := storeAtI_next h
  exact ⟨rfl, rfl, .inr hran, .inl rfl, .inl ⟨rfl, rfl⟩⟩

theorem execCall_writesOwnSpaces {addr : Addr} (hran : ran (.call addr)) (h : execCall addr s = .next t) :
    WritesOwnSpaces ran s t := by
  obtain ⟨u, hpush, rfl⟩ := execCall_next h
  obtain ⟨_, rfl⟩ := State.push_eq_some hpush
  exact ⟨rfl, rfl, .inl rfl, .inl rfl, .inr (.inr ⟨addr, hran⟩)⟩

theorem execReturn_writesOwnSpaces (hran : ran .ret) (h : execReturn s = .next t) : WritesOwnSpaces ran s t := by
  obtain ⟨target, u, hpop, rfl⟩ := execReturn_next h
  obtain ⟨_, -, rfl⟩ := State.pop_eq_some hpop
  exact ⟨rfl, rfl, .inl rfl, .inl rfl, .inr (.inl hran)⟩

theorem execDrw_writesOwnSpaces {x y : Reg} {n : Fin 16} (hran : ran (.drw x y n)) (h : execDrw x y n s = .next t) :
    WritesOwnSpaces ran s t := by
  obtain ⟨d, f, rfl⟩ := execDrw_next h
  exact ⟨rfl, rfl, .inl rfl, .inr (.inr ⟨x, y, n, hran⟩), .inl ⟨rfl, rfl⟩⟩

theorem execLdKey_writesOwnSpaces {x : Reg} (h : execLdKey x s = .next t) : WritesOwnSpaces ran s t := by
  rcases execLdKey_next h with rfl | ⟨b, rfl⟩ <;> exact .of_eq rfl rfl rfl rfl rfl rfl

theorem execLoadRegs_writesOwnSpaces {x : Reg} (h : execLoadRegs x s = .next t) : WritesOwnSpaces ran s t := by
  obtain rfl := execLoadRegs_next h
  rw [State.writeRegsFrom_eq]
  exact .of_eq rfl rfl rfl rfl rfl rfl

/-- Each instruction that completes writes only the spaces that are its own. -/
theorem exec_writesOwnSpaces {i : Instr} (hran : ran i) (h : exec i s = .next t) : WritesOwnSpaces ran s t := by
  cases i with
  | ldB x => exact storeAtI_writesOwnSpaces ⟨x, .inl hran⟩ h
  | storeRegs x => exact storeAtI_writesOwnSpaces ⟨x, .inr hran⟩ h
  | cls => cases h; exact ⟨rfl, rfl, .inl rfl, .inr (.inl hran), .inl ⟨rfl, rfl⟩⟩
  | drw x y n => exact execDrw_writesOwnSpaces hran h
  | call addr => exact execCall_writesOwnSpaces hran h
  | ret => exact execReturn_writesOwnSpaces hran h
  | seImm x kk | sneImm x kk | seReg x y | sneReg x y => cases h; exact skipIf_writesOwnSpaces _ s
  | skp x | sknp x =>
    obtain ⟨c, rfl⟩ := skipOnKey_next h
    exact skipIf_writesOwnSpaces c s
  | ldKey x => exact execLdKey_writesOwnSpaces h
  | loadRegs x => exact execLoadRegs_writesOwnSpaces h
  | sys addr => cases h; exact reportUnrecognized_writesOwnSpaces _ s
  | jp addr | jpV0 addr | ldImm x kk | addImm x kk | ldReg x y | or x y | and x y | xor x y | addReg x y | sub x y
  | shr x y | subn x y | shl x y | rnd x kk | ldI addr | addI x | ldF x | ldFromDT x | ldDT x | ldST x =>
    cases h
    exact .of_eq rfl rfl rfl rfl rfl rfl

/-- A word that was fetched and decodes is the instruction that the step runs. -/
theorem runs_of_fetch {w : Word} {i : Instr} (hfault : s.fault = none) (hfetch : s.beginStep.fetch = some w)
    (hi : decodeWord w = .ok i) : Runs s i := by
  obtain ⟨hpc, hw⟩ := (State.fetch_eq_some _ _).mp hfetch
  exact ⟨w, ⟨hfault, hpc, hw.symm⟩, hi⟩

/-- A step writes only the spaces of the instruction it runs; the tick before it writes none of them. -/
theorem step_writesOwnSpaces (h : step s = .next t) : WritesOwnSpaces (Runs s) s.beginStep t := by
  obtain ⟨hfault, w, hfetch, hrun⟩ := step_next_cases h
  rcases hrun with ⟨i, hi, hexec⟩ | ⟨e, -, rfl⟩
  · exact exec_writesOwnSpaces (runs_of_fetch hfault hfetch hi) hexec
  · exact reportUnrecognized_writesOwnSpaces w _

end

/-- Settles O47: a space that has changed leaves only the alternative that its own instruction ran; `FAULT` is as it was
before the step, and a core that steps has not faulted. -/
theorem eachSpaceIsWrittenOnlyByItsInstructions : Obligations.EachSpaceIsWrittenOnlyByItsInstructions := by
  intro s t h
  obtain ⟨hkey, hfault, hmem, hdisp, hstack⟩ := step_writesOwnSpaces h
  refine ⟨hkey, hfault.trans (step_next_cases h).1, fun ⟨a, ha⟩ => ?_, hdisp.resolve_left, fun hchanged => ?_⟩
  · exact hmem.resolve_left fun hsame => ha (congrArg (Memory.readByte · a) hsame)
  · exact hstack.resolve_left fun ⟨hsp, hstk⟩ => hchanged.elim (· hsp) (· hstk)

end Sys2Proof.Safety

/-! # Encoding: the decoder against the encoder and the opcode map (30_encoding.md)

One inversion of the decoder, `decodeWord_fits`, says what an answer tells about its word. The fields of a word that
matches a row of the opcode map are those of the row's value, so the decoder takes that row's arm. -/

namespace Sys2Proof

/-! ## A word from fixed fields (R63) -/

section
variable {w : Word} {op : Nibble}

theorem wordA_of_fieldOp (hop : fieldOp w = op) : wordA op (fieldAddr w) = w :=
  hop ▸ wordA_fields w

theorem wordXK_of_fieldOp (hop : fieldOp w = op) : wordXK op (fieldX w) (fieldKK w) = w :=
  hop ▸ wordXK_fields w

theorem wordXYN_of_fieldOp (hop : fieldOp w = op) : wordXYN op (fieldX w) (fieldY w) (fieldN3 w) = w :=
  hop ▸ wordXYN_fields w

theorem wordXYN_of_minor {n3 : Nibble} (hop : fieldOp w = op) (hn : (fieldN3 w).toNat = n3.toNat) :
    wordXYN op (fieldX w) (fieldY w) n3 = w :=
  BitVec.eq_of_toNat_eq hn ▸ wordXYN_of_fieldOp hop

theorem wordX_of_minor {fn8 : Byte} (hop : fieldOp w = op) (hkk : (fieldKK w).toNat = fn8.toNat) :
    wordX op (fieldX w) fn8 = w :=
  BitVec.eq_of_toNat_eq hkk ▸ wordXK_of_fieldOp hop

end

/-! ## What an answer of the decoder tells about its word (R67) -/

/-- An instruction is well formed and encodes to `w`; an error names `w`, whose major opcode is not 0. -/
def FitsWord (w : Word) : Except DecodeError Instr → Prop
  | .ok i => i.wellFormed = true ∧ encodeWord i = w
  | .error e => e = .unrecognized w ∧ fieldOp w ≠ 0x0#4

/-- `SYS` is what is left of major opcode 0 without the words of `CLS` and `RETURN` (R69). -/
theorem decodeOp0_fits {w : Word} (hop : fieldOp w = 0x0#4) : FitsWord w (.ok (decodeOp0 w)) := by
  have hword : wordA 0x0#4 (fieldAddr w) = w := wordA_of_fieldOp hop
  unfold decodeOp0
  split
  next hcls => exact ⟨rfl, hcls.symm⟩
  next hcls =>
    split
    next hret => exact ⟨rfl, hret.symm⟩
    next hret =>
      have hne0 : fieldAddr w ≠ 0x0E0#12 := fun h => hcls (hword.symm.trans (h ▸ rfl))
      have hneE : fieldAddr w ≠ 0x0EE#12 := fun h => hret (hword.symm.trans (h ▸ rfl))
      exact ⟨by simp [Instr.wellFormed, hne0, hneE], hword⟩

theorem decodeOp8_fits {w : Word} (hop : fieldOp w = 0x8#4) : FitsWord w (decodeOp8 w) := by
  unfold decodeOp8
  split
  case h_10 => exact ⟨rfl, by simp [hop]⟩
  all_goals next hn => exact ⟨rfl, wordXYN_of_minor hop hn⟩

theorem decodeOpE_fits {w : Word} (hop : fieldOp w = 0xE#4) : FitsWord w (decodeOpE w) := by
  unfold decodeOpE
  split
  case h_3 => exact ⟨rfl, by simp [hop]⟩
  all_goals next hkk => exact ⟨rfl, wordX_of_minor hop hkk⟩

theorem decodeOpF_fits {w : Word} (hop : fieldOp w = 0xF#4) : FitsWord w (decodeOpF w) := by
  unfold decodeOpF
  split
  case h_10 => exact ⟨rfl, by simp [hop]⟩
  all_goals next hkk => exact ⟨rfl, wordX_of_minor hop hkk⟩

/-- The decoder's inversion, by major opcode. -/
theorem decodeWord_fits (w : Word) : FitsWord w (decodeWord w) := by
  have hop {n : Nibble} (h : (fieldOp w).toNat = n.toNat) : fieldOp w = n := BitVec.eq_of_toNat_eq h
  unfold decodeWord
  split
  case h_1 h => exact decodeOp0_fits (hop h)
  case h_2 h | h_3 h | h_11 h | h_12 h => exact ⟨rfl, wordA_of_fieldOp (hop h)⟩
  case h_4 h | h_5 h | h_7 h | h_8 h | h_13 h => exact ⟨rfl, wordXK_of_fieldOp (hop h)⟩
  case h_6 h | h_10 h =>
    split
    next hn => exact ⟨rfl, wordXYN_of_minor (hop h) (congrArg _ hn)⟩
    next => exact ⟨rfl, fun h0 => by simp [h0] at h⟩
  case h_9 h => exact decodeOp8_fits (hop h)
  case h_14 h => exact ⟨rfl, wordXYN_of_fieldOp (hop h)⟩
  case h_15 h => exact decodeOpE_fits (hop h)
  case h_16 =>
    have hlt := (fieldOp w).isLt
    have h : (fieldOp w).toNat = 15 := by grind
    exact decodeOpF_fits (hop h)

/-- Inversion at an instruction. -/
theorem encodeWord_of_decodeWord {w : Word} {i : Instr} (h : decodeWord w = .ok i) :
    i.wellFormed = true ∧ encodeWord i = w := by
  have hfits := decodeWord_fits w
  rwa [h] at hfits

/-- Inversion at an error. -/
theorem decodeWord_error {w : Word} {e : DecodeError} (h : decodeWord w = .error e) :
    e = .unrecognized w ∧ fieldOp w ≠ 0x0#4 := by
  have hfits := decodeWord_fits w
  rwa [h] at hfits

/-- Settles O2: the inversion of the decoder, at an instruction. -/
theorem encodeOfDecodeIsTheWord : Obligations.EncodeOfDecodeIsTheWord :=
  fun _ _ h => encodeWord_of_decodeWord h

/-- Settles O5: the decoder is evaluated at the printed words. -/
theorem printedWordsDecodeAsPrinted : Obligations.PrintedWordsDecodeAsPrinted := by
  unfold Obligations.PrintedWordsDecodeAsPrinted
  decide

/-! ## The fields that a mask fixes -/

section
variable {w m v : Word}

/-- Where the mask is all ones, the word has the bits of the value. -/
theorem extractLsb'_of_and_eq {start len : Nat} (h : w &&& m = v)
    (hm : m.extractLsb' start len = BitVec.allOnes len) : w.extractLsb' start len = v.extractLsb' start len := by
  rw [← h, BitVec.extractLsb'_and, hm, BitVec.and_allOnes]

theorem fieldOp_of_and_eq (h : w &&& m = v) (hm : fieldOp m = 0xF#4) : fieldOp w = v.extractLsb' 12 4 :=
  extractLsb'_of_and_eq h hm

theorem fieldN3_of_and_eq (h : w &&& m = v) (hm : fieldN3 m = 0xF#4) : fieldN3 w = v.extractLsb' 0 4 :=
  extractLsb'_of_and_eq h hm

theorem fieldKK_of_and_eq (h : w &&& m = v) (hm : fieldKK m = 0xFF#8) : fieldKK w = v.extractLsb' 0 8 :=
  extractLsb'_of_and_eq h hm

end

end Sys2Proof

namespace Sys2Proof.Safety

/-! ## The fields as numbers are the decoder's fields (R62) -/

theorem toNat_fieldOp (w : Word) : (fieldOp w).toNat = w.toNat / 4096 := by
  simp only [fieldOp, BitVec.extractLsb'_toNat, Nat.shiftRight_eq_div_pow]
  omega

@[simp] theorem xOf_eq_fieldX (w : Word) : xOf w = fieldX w :=
  Fin.ext (by simp [xOf, fieldX, fieldN1, Nat.shiftRight_eq_div_pow])

@[simp] theorem yOf_eq_fieldY (w : Word) : yOf w = fieldY w :=
  Fin.ext (by simp [yOf, fieldY, fieldN2, Nat.shiftRight_eq_div_pow])

@[simp] theorem nOf_eq_fieldN (w : Word) : nOf w = fieldN w :=
  Fin.ext (by simp [nOf, fieldN, fieldN3])

@[simp] theorem kkOf_eq_fieldKK (w : Word) : kkOf w = fieldKK w :=
  BitVec.eq_of_toNat_eq (by simp [kkOf, fieldKK])

@[simp] theorem addrOf_eq_fieldAddr (w : Word) : addrOf w = fieldAddr w :=
  BitVec.eq_of_toNat_eq (by simp [addrOf, fieldAddr])

/-! ## The opcode map (R66, R67) -/

theorem mem_rowsMatching {w : Word} {r : Row} :
    r ∈ rowsMatching w ↔ r ∈ recognizedRows ∧ w &&& r.mask = r.value := by
  simp [rowsMatching]

/-- Any two rows ask for different bits where both masks look. -/
theorem recognizedRows_disjoint :
    recognizedRows.Pairwise fun r r' => r.value &&& r'.mask ≠ r'.value &&& r.mask := by decide

/-- A word that matched two rows would have the bits of both where both masks look. -/
theorem length_rowsMatching_le_one (w : Word) : (rowsMatching w).length ≤ 1 := by
  have hdisjoint := List.Pairwise.sublist (l₁ := rowsMatching w) List.filter_sublist recognizedRows_disjoint
  have hmatch : ∀ r ∈ rowsMatching w, w &&& r.mask = r.value := fun r hr => (mem_rowsMatching.mp hr).2
  match hrows : rowsMatching w with
  | [] | [_] => simp
  | r :: r' :: rest =>
    rw [hrows] at hdisjoint hmatch
    have hne : r.value &&& r'.mask ≠ r'.value &&& r.mask := List.rel_of_pairwise_cons hdisjoint (by simp)
    rw [← hmatch r (by simp), ← hmatch r' (by simp), BitVec.and_assoc, BitVec.and_assoc,
      BitVec.and_comm r.mask] at hne
    exact absurd rfl hne

/-- The mask of each row fixes the fields on which the decoder branches. -/
theorem decodeWord_of_row {w : Word} :
    ∀ r ∈ recognizedRows, w &&& r.mask = r.value → decodeWord w = .ok (r.form w) := by
  have hwhole {v : Word} (h : w &&& 0xFFFF#16 = v) : w = v := by rwa [← BitVec.and_allOnes (x := w)]
  simp only [recognizedRows, List.cons_append, List.nil_append, List.forall_mem_cons, List.not_mem_nil, false_imp_iff,
    implies_true, and_true, xOf_eq_fieldX, yOf_eq_fieldY, nOf_eq_fieldN, kkOf_eq_fieldKK, addrOf_eq_fieldAddr]
  refine ⟨fun h => hwhole h ▸ rfl, fun h => hwhole h ▸ rfl, ?_⟩
  and_intros
  all_goals
    intro h
    simp (disch := decide) [decodeWord, decodeOp8, decodeOpE, decodeOpF, fieldOp_of_and_eq h, fieldN3_of_and_eq h,
      fieldKK_of_and_eq h]

open Laws in
/-- The word of an instruction has the fixed bits of its row. -/
theorem encodeWord_and_rowMask (i : Instr) : encodeWord i &&& i.rowMask = i.rowValue := by
  cases i with
  | sys addr => exact RowMatch.sys addr | cls => exact RowMatch.cls | ret => exact RowMatch.ret
  | jp addr => exact RowMatch.jp addr | call addr => exact RowMatch.call addr
  | seImm x kk => exact RowMatch.seImm x kk | sneImm x kk => exact RowMatch.sneImm x kk
  | seReg x y => exact RowMatch.seReg x y | ldImm x kk => exact RowMatch.ldImm x kk
  | addImm x kk => exact RowMatch.addImm x kk | ldReg x y => exact RowMatch.ldReg x y
  | or x y => exact RowMatch.or x y | and x y => exact RowMatch.and x y | xor x y => exact RowMatch.xor x y
  | addReg x y => exact RowMatch.addReg x y | sub x y => exact RowMatch.sub x y | shr x y => exact RowMatch.shr x y
  | subn x y => exact RowMatch.subn x y | shl x y => exact RowMatch.shl x y | sneReg x y => exact RowMatch.sneReg x y
  | ldI addr => exact RowMatch.ldI addr | jpV0 addr => exact RowMatch.jpV0 addr | rnd x kk => exact RowMatch.rnd x kk
  | drw x y n => exact RowMatch.drw x y n | skp x => exact RowMatch.skp x | sknp x => exact RowMatch.sknp x
  | ldFromDT x => exact RowMatch.ldFromDT x | ldKey x => exact RowMatch.ldKey x | ldDT x => exact RowMatch.ldDT x
  | ldST x => exact RowMatch.ldST x | addI x => exact RowMatch.addI x | ldF x => exact RowMatch.ldF x
  | ldB x => exact RowMatch.ldB x | storeRegs x => exact RowMatch.storeRegs x
  | loadRegs x => exact RowMatch.loadRegs x

/-- Every instruction but `SYS` has its row among the recognized ones. -/
theorem exists_recognizedRow (i : Instr) (hi : ∀ addr, i ≠ .sys addr) :
    ∃ r ∈ recognizedRows, r.mask = i.rowMask ∧ r.value = i.rowValue := by
  have hany : recognizedRows.any (fun r => r.mask == i.rowMask && r.value == i.rowValue) = true := by
    cases i with
    | sys addr => exact absurd rfl (hi addr)
    | _ => rfl
  simpa using hany

/-- A word of no row decodes to nothing but `SYS`. -/
theorem eq_sys_of_rowsMatching_nil {w : Word} {i : Instr} (hrows : rowsMatching w = []) (h : decodeWord w = .ok i) :
    ∃ addr, i = .sys addr := by
  by_contra hi
  obtain ⟨r, hr, hmask, hvalue⟩ := exists_recognizedRow i (not_exists.mp hi)
  have hword := (encodeWord_of_decodeWord h).2
  have hmatch : w &&& r.mask = r.value := by rw [hmask, hvalue, ← hword, encodeWord_and_rowMask]
  exact absurd (mem_rowsMatching.mpr ⟨hr, hmatch⟩) (by simp [hrows])

/-- What a word of no row decodes to (R69, D3). -/
theorem decodeWord_of_rowsMatching_nil {w : Word} (hrows : rowsMatching w = []) : decodeWord w =
    if w.toNat / 4096 = 0 then .ok (.sys (addrOf w)) else .error (.unrecognized w) := by
  have hop : w.toNat / 4096 = 0 ↔ fieldOp w = 0x0#4 := by
    rw [← toNat_fieldOp, BitVec.toNat_eq]
    rfl
  rw [addrOf_eq_fieldAddr]
  cases h : decodeWord w with
  | ok i =>
    obtain ⟨addr, rfl⟩ := eq_sys_of_rowsMatching_nil hrows h
    have hword : wordA 0x0#4 addr = w := (encodeWord_of_decodeWord h).2
    rw [if_pos (hop.mpr (by rw [← hword, fieldOp_wordA])), ← hword, fieldAddr_wordA]
  | error e =>
    obtain ⟨rfl, hne⟩ := decodeWord_error h
    rw [if_neg (mt hop.mp hne)]

/-- Settles O3: rows are disjoint, a matched row names the decoder's arm, and every answer but `SYS` has a row. -/
theorem decodePicksTheUniqueTableRow : Obligations.DecodePicksTheUniqueTableRow := by
  refine fun w => ⟨length_rowsMatching_le_one w, fun r hr => ?_, decodeWord_of_rowsMatching_nil⟩
  obtain ⟨hmem, hmatch⟩ := mem_rowsMatching.mp (hr ▸ List.mem_singleton_self r : r ∈ rowsMatching w)
  exact decodeWord_of_row r hmem hmatch

end Sys2Proof.Safety

/-! # The step cycle: what a step runs, how an instruction ends, where `PC` goes, and the timers (40_step_cycle.md)

A step that runs `i` is `exec i` in the ticked state, `step_of_runs`; an unrecognized word is reported there,
`step_of_unrecognized`. Three case splits over the instructions say how `exec` ends (`exec_endsAs`), where it leaves `PC`
(`exec_pcAfter`) and which timers it writes (`exec_timers`). -/

namespace Sys2Proof.Safety

open Sys2Proof.Machine

/-! ## The start of a step (R80 to R84, R88) -/

/-- The tick as the rules state it is the model's own start of a step. -/
theorem ticked_eq_beginStep (s : State) : ticked s = s.beginStep := rfl

/-- The fetch of a step reads the word that stands at `PC`: the tick before it moves neither. -/
theorem fetch_beginStep_of_fetches {s : State} {w : Word} (h : Fetches s w) : s.beginStep.fetch = some w := by
  obtain ⟨-, hpc, hw⟩ := h
  exact (State.fetch_eq_some _ _).mpr ⟨hpc, hw.symm⟩

theorem step_of_runs {s : State} {i : Instr} (h : Runs s i) : step s = exec i s.beginStep := by
  obtain ⟨w, hw, hi⟩ := h
  exact step_of_decode hw.1 (fetch_beginStep_of_fetches hw) hi

/-- Settles O6: the state that the tick leaves is the one in which a step runs its instruction. -/
theorem stepRunsDecodedInstruction : Obligations.StepRunsDecodedInstruction := by
  intro s i h
  rw [ticked_eq_beginStep, step_of_runs h]

/-- Settles O7: the fetch answers by its bound, and the tick before the fetch of a step leaves `PC` alone. -/
theorem fetchIsBigEndianAndBounded : Obligations.FetchIsBigEndianAndBounded := by
  refine fun s => ⟨fun w => ?_, fun hfault hpc => ?_⟩
  · rw [State.fetch_eq_some, eq_comm (b := w)]
    rfl
  · have hnone : s.beginStep.fetch = none := (State.fetch_eq_none _).mpr hpc
    exact step_of_fetch_none hfault hnone

/-- Settles O11: the latch is looked at first, and the host keeps the state of a stuck core. -/
theorem faultedCoreIsStuck : Obligations.FaultedCoreIsStuck := by
  intro s c hfault
  have hstep := step_of_fault hfault
  exact ⟨hstep, by simp [hostStep, stateAfterStep, stepOutcome, hstep]⟩

/-! ## Unrecognized words (R69, R85) -/

/-- The word of a `SYS` row is its address, zero-extended. -/
theorem addrOperand_eq_wordA (addr : Addr) : addrOperand addr = wordA 0x0#4 addr := by
  apply BitVec.eq_of_toNat_eq
  rw [toNat_addrOperand, wordA, BitVec.toNat_append]
  simp

/-- An unrecognized word is of no row, or it is the word of the `SYS` that it decodes to. -/
theorem decodeWord_of_not_recognized {w : Word} (h : recognized w = false) :
    (∃ e, decodeWord w = .error e) ∨ ∃ addr, decodeWord w = .ok (.sys addr) ∧ addrOperand addr = w := by
  unfold recognized at h
  split at h
  next addr hsys => exact .inr ⟨addr, hsys, (addrOperand_eq_wordA addr).trans (encodeWord_of_decodeWord hsys).2⟩
  next => cases h
  next e herror => exact .inl ⟨e, herror⟩

/-- Both kinds of unrecognized word take the same way through a step. -/
theorem step_of_unrecognized {s : State} {w : Word} (hw : Fetches s w) (h : recognized w = false) :
    step s = .next (reportUnrecognized w s.beginStep) := by
  rcases decodeWord_of_not_recognized h with ⟨e, herror⟩ | ⟨addr, hsys, hword⟩
  · exact step_of_decode_error hw.1 (fetch_beginStep_of_fetches hw) herror
  · rw [step_of_runs ⟨w, hw, hsys⟩, ← hword]
    rfl

/-- The tick and the report touch both timers and the diagnostic, and beside them `PC` alone. -/
theorem reportUnrecognized_beginStep_unchanged (w : Word) (s : State) :
    UnchangedBut [] [.delay, .sound, .report] s (reportUnrecognized w s.beginStep) := by
  refine ⟨fun _ _ => rfl, fun p hp => ?_⟩
  cases p with
  | delay | sound | report => exact absurd (by decide) hp
  | stack => exact ⟨rfl, rfl⟩
  | memory => exact fun _ => rfl
  | index | display | keys | latch | drawCount => rfl

/-- Settles O9: the step is the report in the ticked state, and the host reads its diagnostic back. -/
theorem unrecognizedOpcodeIsReportedAndPassedOver : Obligations.UnrecognizedOpcodeIsReportedAndPassedOver := by
  intro s w hw hrec
  have hstep := step_of_unrecognized hw hrec
  exact ⟨_, hstep, rfl, toNat_tickTimer _, toNat_tickTimer _, rfl, congrArg stepOutcome hstep,
    reportUnrecognized_beginStep_unchanged w s⟩

/-! ## How an instruction ends (R90, R192 to R195) -/

/-- The outcome `o` is a next state when `c` names no fault, and else the fault it names. -/
def EndsAs : Option Fault → Host.Outcome State Fault Refusal → Prop
  | none, o => ∃ t, o = .next t
  | some f, o => o = .fault f

theorem endsAs_next (t : State) : EndsAs none (.next t) := ⟨t, rfl⟩

/-- A check of `count` bytes before a completing effect ends as any condition says that means the bytes are not all
there. -/
theorem checkAccess_endsAs {base : Word} {count : Nat} {c : Prop} [Decidable c]
    (hc : c ↔ count ≠ 0 ∧ base.toNat + (count - 1) > 0xFFF) (t : State) :
    EndsAs (if c then some (.memoryOutOfBounds base) else none) (checkAccess base count (.next t)) := by
  split
  next hout =>
    obtain ⟨hpos, hhigh⟩ := hc.mp hout
    exact checkAccess_of_outOfBounds _ hpos hhigh
  next hin =>
    rw [checkAccess_of_inBounds _ (by rw [hc] at hin; omega)]
    exact endsAs_next t

theorem execCall_endsAs (addr : Addr) (s : State) : EndsAs (faultCondition (.call addr) s) (execCall addr s) := by
  rcases s.push_cases (s.pc + 2) with ⟨hfull, hpush⟩ | ⟨hroom, hpush⟩
  · rw [faultCondition, if_pos hfull, execCall, hpush]
    rfl
  · rw [faultCondition, if_neg hroom.ne, execCall, hpush]
    exact endsAs_next _

theorem execReturn_endsAs (s : State) : EndsAs (faultCondition .ret s) (execReturn s) := by
  rcases s.pop_cases with ⟨hempty, hpop⟩ | ⟨hlive, hpop⟩
  · rw [faultCondition, if_pos hempty, execReturn, hpop]
    rfl
  · rw [faultCondition, if_neg hlive.ne', execReturn, hpop]
    exact endsAs_next _

/-- Both key skips fault on the same indices (R195). -/
theorem skipOnKey_endsAs (x : Reg) (pressed : Bool) (s : State) :
    EndsAs (if (s.readReg x).toNat > 15 then some (.keyIndexOutOfRange (s.readReg x)) else none)
      (skipOnKey x pressed s) := by
  rcases keyIndex_cases (s.readReg x) with ⟨hhigh, hkey⟩ | ⟨k, hk, hkey⟩
  · rw [if_pos hhigh, skipOnKey, hkey]
    rfl
  · rw [if_neg (by omega), skipOnKey, hkey]
    exact endsAs_next _

theorem execLdKey_endsAs (x : Reg) (s : State) : EndsAs none (execLdKey x s) := by
  unfold execLdKey
  split <;> exact endsAs_next _

/-- Every instruction ends as its fault condition says. -/
theorem exec_endsAs (i : Instr) (s : State) : EndsAs (faultCondition i s) (exec i s) := by
  cases i with
  | call addr => exact execCall_endsAs addr s
  | ret => exact execReturn_endsAs s
  | drw x y n => exact checkAccess_endsAs (by omega) _
  | ldB x => exact checkAccess_endsAs (by simp [bcdDigits]) _
  | storeRegs x => exact checkAccess_endsAs (by simp [length_registerBlock]) _
  | loadRegs x => exact checkAccess_endsAs (by omega) _
  | skp x | sknp x => exact skipOnKey_endsAs x _ s
  | ldKey x => exact execLdKey_endsAs x s
  | sys | cls | jp | jpV0 | seImm | sneImm | seReg | sneReg | ldImm | addImm | ldReg | or | and | xor | addReg | sub
  | shr | subn | shl | rnd | ldI | addI | ldF | ldFromDT | ldDT | ldST => exact endsAs_next _

/-- Settles O13: the two clauses are the two values of the fault condition. -/
theorem instructionsCompleteUnlessTheirFault : Obligations.InstructionsCompleteUnlessTheirFault := by
  refine ⟨fun i s hnone => ?_, fun i s f hsome => ?_⟩
  · have hends := exec_endsAs i s
    rwa [hnone] at hends
  · have hends := exec_endsAs i s
    rwa [hsome] at hends

/-! ## The program counter (R86) -/

theorem skipIf_pc_eq_skipPC {c : Prop} [Decidable c] {b : Bool} (hb : b = true ↔ c) (s : State) :
    (s.skipIf b).pc = skipPC c s := by
  simp [skipPC, hb]

theorem keyDown_iff {s : State} {b : Byte} {k : Fin 16} (hk : k.val = b.toNat) : keyDown s b ↔ s.key.get k = true := by
  refine ⟨fun ⟨j, hj, hdown⟩ => ?_, fun hdown => ⟨k, hk, hdown⟩⟩
  rwa [Fin.ext (hk.trans hj.symm)]

/-- A key skip that completes looks at the flag of the key its register names (R160, R161). -/
theorem skipOnKey_next_key {x : Reg} {pressed : Bool} {s t : State} (h : skipOnKey x pressed s = .next t) :
    ∃ k : Fin 16, k.val = (s.readReg x).toNat ∧ t = s.skipIf (s.key.get k == pressed) := by
  rcases keyIndex_cases (s.readReg x) with ⟨-, hkey⟩ | ⟨k, hk, hkey⟩
  · simp [skipOnKey, hkey, raise] at h
  · exact ⟨k, hk, by simpa [skipOnKey, hkey] using h.symm⟩

theorem execReturn_pcAfter {s t : State} (h : execReturn s = .next t) : PCAfter .ret s t.pc := by
  obtain ⟨target, u, hpop, rfl⟩ := execReturn_next h
  obtain ⟨_, rfl, -⟩ := State.pop_eq_some hpop
  exact Vector.getElem?_eq_getElem _

/-- The wait for a key polls while none is pressed (R163). -/
theorem execLdKey_pcAfter {x : Reg} {s t : State} (h : execLdKey x s = .next t) : PCAfter (.ldKey x) s t.pc := by
  unfold execLdKey at h
  rcases lowestPressed_cases s.key with ⟨hup, hlow⟩ | ⟨k, hk, -, hlow⟩
  · rw [hlow] at h
    cases h
    exact ⟨fun ⟨k, hk⟩ => absurd hk (by simp [hup k]), fun _ => rfl⟩
  · rw [hlow] at h
    cases h
    exact ⟨fun _ => rfl, fun hup => absurd hk (by simp [hup k])⟩

/-- Every instruction that completes leaves `PC` where the table of R86 says. -/
theorem exec_pcAfter {i : Instr} {s t : State} (h : exec i s = .next t) : PCAfter i s t.pc := by
  cases i with
  | jp addr => cases h; exact toNat_addrOperand addr
  | jpV0 addr => cases h; exact toNat_jumpV0_target addr _
  | call addr =>
    obtain ⟨u, -, rfl⟩ := execCall_next h
    exact toNat_addrOperand addr
  | ret => exact execReturn_pcAfter h
  | seImm x kk | seReg x y => cases h; exact skipIf_pc_eq_skipPC beq_iff_eq s
  | sneImm x kk | sneReg x y => cases h; exact skipIf_pc_eq_skipPC bne_iff_ne s
  | skp x | sknp x =>
    obtain ⟨k, hk, rfl⟩ := skipOnKey_next_key h
    simp [PCAfter, keyDown_iff hk]
  | ldKey x => exact execLdKey_pcAfter h
  | ldB x | storeRegs x =>
    obtain ⟨-, rfl⟩ := storeAtI_next h
    rfl
  | loadRegs x =>
    obtain rfl := execLoadRegs_next h
    exact congrArg (· + 2) (State.writeRegsFrom_pc s 0 _)
  | drw x y n =>
    obtain ⟨d, f, rfl⟩ := execDrw_next h
    rfl
  | sys | cls | ldImm | addImm | ldReg | or | and | xor | addReg | sub | shr | subn | shl | rnd | ldI | addI | ldF
  | ldFromDT | ldDT | ldST => cases h; rfl

/-- Settles O14: the table holds arm by arm. -/
theorem programCounterFollowsTheTable : Obligations.ProgramCounterFollowsTheTable :=
  fun _ _ _ h => exec_pcAfter h

/-! ## The timers (R81, R164, R165) -/

/-- An instruction leaves each timer as it is, but for the one that writes it. -/
theorem exec_timers {i : Instr} {s t : State} (h : exec i s = .next t) :
    (t.dt = s.dt ∨ ∃ x, i = .ldDT x) ∧ (t.st = s.st ∨ ∃ x, i = .ldST x) := by
  cases i with
  | ldDT x => cases h; exact ⟨.inr ⟨x, rfl⟩, .inl rfl⟩
  | ldST x => cases h; exact ⟨.inl rfl, .inr ⟨x, rfl⟩⟩
  | call addr =>
    obtain ⟨u, hpush, rfl⟩ := execCall_next h
    obtain ⟨_, rfl⟩ := State.push_eq_some hpush
    exact ⟨.inl rfl, .inl rfl⟩
  | ret =>
    obtain ⟨target, u, hpop, rfl⟩ := execReturn_next h
    obtain ⟨_, -, rfl⟩ := State.pop_eq_some hpop
    exact ⟨.inl rfl, .inl rfl⟩
  | seImm x kk | sneImm x kk | seReg x y | sneReg x y =>
    cases h
    exact ⟨.inl (State.skipIf_dt _ s), .inl (State.skipIf_st _ s)⟩
  | skp x | sknp x =>
    obtain ⟨c, rfl⟩ := skipOnKey_next h
    exact ⟨.inl (State.skipIf_dt c s), .inl (State.skipIf_st c s)⟩
  | ldKey x => rcases execLdKey_next h with rfl | ⟨b, rfl⟩ <;> exact ⟨.inl rfl, .inl rfl⟩
  | ldB x | storeRegs x =>
    obtain ⟨-, rfl⟩ := storeAtI_next h
    exact ⟨.inl rfl, .inl rfl⟩
  | loadRegs x =>
    obtain rfl := execLoadRegs_next h
    rw [State.writeRegsFrom_eq]
    exact ⟨.inl rfl, .inl rfl⟩
  | drw x y n =>
    obtain ⟨d, f, rfl⟩ := execDrw_next h
    exact ⟨.inl rfl, .inl rfl⟩
  | sys | cls | jp | jpV0 | ldImm | addImm | ldReg | or | and | xor | addReg | sub | shr | subn | shl | rnd | ldI | addI
  | ldF | ldFromDT =>
    cases h
    exact ⟨.inl rfl, .inl rfl⟩

/-- A step leaves each timer ticked, unless it ran the instruction that writes it. -/
theorem step_timers {s t : State} (h : step s = .next t) :
    (t.dt = tickTimer s.dt ∨ ∃ x, Runs s (.ldDT x)) ∧ (t.st = tickTimer s.st ∨ ∃ x, Runs s (.ldST x)) := by
  obtain ⟨hfault, w, hfetch, hrun⟩ := step_next_cases h
  rcases hrun with ⟨i, hi, hexec⟩ | ⟨e, -, rfl⟩
  · have hruns := runs_of_fetch hfault hfetch hi
    obtain ⟨hdt, hst⟩ := exec_timers hexec
    exact ⟨hdt.imp_right fun ⟨x, hx⟩ => ⟨x, hx ▸ hruns⟩, hst.imp_right fun ⟨x, hx⟩ => ⟨x, hx ▸ hruns⟩⟩
  · exact ⟨.inl rfl, .inl rfl⟩

/-- Settles O8: a timer that was not written is the ticked one, and the three timer moves run in the ticked state. -/
theorem stepTicksBothTimers : Obligations.StepTicksBothTimers := by
  intro s t h
  obtain ⟨hdt, hst⟩ := step_timers h
  have hexec {i : Instr} (hruns : Runs s i) : exec i s.beginStep = .next t := (step_of_runs hruns).symm.trans h
  refine ⟨fun hno => ?_, fun hno => ?_, fun x hruns => ?_, fun x hruns => ?_, fun x hruns => ?_⟩
  · rw [hdt.resolve_right (not_exists.mpr hno), toNat_tickTimer]
  · rw [hst.resolve_right (not_exists.mpr hno), toNat_tickTimer]
  · cases hexec hruns
    rfl
  · cases hexec hruns
    rfl
  · cases hexec hruns
    rw [State.readReg_advance, State.readReg_writeReg_same, State.beginStep_dt, toNat_tickTimer]

end Sys2Proof.Safety

/-! # Control transfer: SYS, JP, JP V0, SE, SNE, CALL and RETURN (41_control_transfer.md)

That the words of this family are its instructions is one fact of the whole decoder, `decodeWord_encodeWord`. What CALL
and RETURN do to the stack follows from what `push` and `pop` do to it; where they leave `PC` is `exec_pcAfter`. -/

namespace Sys2Proof

/-! ## The word of an instruction decodes to it (R66) -/

/-- The words of the `SYS` row are those that the two whole-word forms of major opcode 0 leave (R69). -/
theorem decodeOp0_wordA {addr : Addr} (hcls : addr ≠ 0x0E0#12) (hret : addr ≠ 0x0EE#12) :
    decodeOp0 (wordA 0x0#4 addr) = .sys addr := by
  have hne {a : Addr} (ha : addr ≠ a) : wordA 0x0#4 addr ≠ wordA 0x0#4 a :=
    fun h => ha (by simpa using congrArg fieldAddr h)
  have hwordCls : wordA 0x0#4 addr ≠ 0x00E0#16 := hne hcls
  have hwordRet : wordA 0x0#4 addr ≠ 0x00EE#16 := hne hret
  rw [decodeOp0, if_neg hwordCls, if_neg hwordRet, fieldAddr_wordA]

/-- The decoder reads every field back from the word that the encoder puts it in. -/
theorem decodeWord_encodeWord {i : Instr} (h : i.wellFormed = true) : decodeWord (encodeWord i) = .ok i := by
  cases i with
  | sys addr =>
    obtain ⟨hcls, hret⟩ : addr ≠ 0x0E0#12 ∧ addr ≠ 0x0EE#12 := by simpa [Instr.wellFormed] using h
    simp [encodeWord, decodeWord, decodeOp0_wordA hcls hret]
  | cls | ret => rfl
  | jp | call | ldI | jpV0 => simp [encodeWord, decodeWord]
  | seImm | sneImm | ldImm | addImm | rnd => simp [encodeWord, decodeWord]
  | seReg | sneReg | drw => simp [encodeWord, decodeWord]
  | ldReg | or | and | xor | addReg | sub | shr | subn | shl => simp [encodeWord, decodeWord, decodeOp8]
  | skp | sknp => simp [encodeWord, decodeWord, decodeOpE]
  | ldFromDT | ldKey | ldDT | ldST | addI | ldF | ldB | storeRegs | loadRegs =>
    simp [encodeWord, decodeWord, decodeOpF]

end Sys2Proof

namespace Sys2Proof.Safety

open Sys2Proof.Machine

/-! ## From what a next state satisfies to what an instruction answers -/

/-- An instruction whose fault condition does not hold answers a next state, so it answers one with every property that
its next states have. -/
theorem answers_of_next {i : Instr} {s : State} {P : State → Prop} (hnone : faultCondition i s = none)
    (h : ∀ t, exec i s = .next t → P t) : Answers i s P := by
  obtain ⟨t, ht⟩ := instructionsCompleteUnlessTheirFault.1 i s hnone
  exact ⟨t, ht, h t ht⟩

/-! ## SYS (R100) -/

/-- The report of an unrecognized word touches the diagnostic, and beside it `PC` alone. -/
theorem reportUnrecognized_unchanged (w : Word) (s : State) : UnchangedBut [] [.report] s (reportUnrecognized w s) := by
  refine ⟨fun _ _ => rfl, fun p hp => ?_⟩
  cases p with
  | report => exact absurd (by decide) hp
  | stack => exact ⟨rfl, rfl⟩
  | memory => exact fun _ => rfl
  | index | delay | sound | display | keys | latch | drawCount => rfl

/-- Settles O10: `SYS` is the report of its own word. -/
theorem sysIsReportedAndPassedOver : Obligations.SysIsReportedAndPassedOver := by
  refine fun addr s => ⟨fun hcls hret => ?_, ?_⟩
  · exact decodeWord_encodeWord (i := .sys addr) (by simp [Instr.wellFormed, hcls, hret])
  · exact ⟨_, rfl, rfl, congrArg (some ∘ Diagnostic.mk s.pc) (addrOperand_eq_wordA addr),
      reportUnrecognized_unchanged _ s⟩

/-! ## Jumps (R102, R104) -/

/-- Settles O15: the jump sets `PC`, which is no part of the stack. -/
theorem jumpSetsTheTarget : Obligations.JumpSetsTheTarget :=
  fun addr s => ⟨decodeWord_encodeWord (i := .jp addr) rfl, s.setPC (addrOperand addr), rfl, toNat_addrOperand addr,
    rfl, rfl⟩

/-- Settles O16: the 16-bit sum of an address and a byte does not wrap. -/
theorem jumpWithOffsetAddsVZero : Obligations.JumpWithOffsetAddsVZero :=
  fun addr _ => ⟨decodeWord_encodeWord (i := .jpV0 addr) rfl, _, rfl, toNat_jumpV0_target addr _⟩

/-! ## Skips (R105 to R108) -/

/-- An instruction that skips on the test `b` goes on at `PC + 4` exactly when the condition that `b` tests holds. -/
theorem answers_of_skipIf {i : Instr} {s : State} {b : Bool} {c : Prop} [Decidable c]
    (hexec : exec i s = .next (s.skipIf b)) (hb : b = true ↔ c) :
    Answers i s fun t => t.v = s.v ∧ t.pc = if c then s.pc + 4 else s.pc + 2 :=
  ⟨_, hexec, State.skipIf_v b s, skipIf_pc_eq_skipPC hb s⟩

/-- Settles O17: the four forms skip on the test of an equality or of its negation. -/
theorem skipsAdvanceByFourOrTwo : Obligations.SkipsAdvanceByFourOrTwo := by
  refine fun x y kk s => ⟨⟨?_, ?_⟩, ⟨?_, ?_⟩, ⟨?_, ?_⟩, ?_, ?_⟩
  · exact decodeWord_encodeWord (i := .seImm x kk) rfl
  · exact answers_of_skipIf rfl beq_iff_eq
  · exact decodeWord_encodeWord (i := .sneImm x kk) rfl
  · exact answers_of_skipIf rfl bne_iff_ne
  · exact decodeWord_encodeWord (i := .seReg x y) rfl
  · exact answers_of_skipIf rfl beq_iff_eq
  · exact decodeWord_encodeWord (i := .sneReg x y) rfl
  · exact answers_of_skipIf rfl bne_iff_ne

/-! ## CALL and RETURN (R101, R103) -/

section
variable {s t : State}

/-- CALL adds one live entry, the address of the next instruction, and leaves every other slot. -/
theorem exec_call_stack {addr : Addr} (h : exec (.call addr) s = .next t) :
    t.sp.val = s.sp.val + 1 ∧ t.stack[s.sp.val]? = some (s.pc + 2) ∧
      ∀ k : Nat, k ≠ s.sp.val → t.stack[k]? = s.stack[k]? := by
  obtain ⟨u, hpush, rfl⟩ := execCall_next h
  obtain ⟨hroom, rfl⟩ := State.push_eq_some hpush
  exact ⟨rfl, Vector.getElem?_set_self hroom, fun k hk => Vector.getElem?_set_ne hroom hk.symm⟩

/-- RETURN takes the last live entry off the count, goes to it, and leaves every slot. -/
theorem exec_ret_stack (h : exec .ret s = .next t) :
    t.sp.val + 1 = s.sp.val ∧ s.stack[t.sp.val]? = some t.pc ∧ t.stack = s.stack := by
  have hpc : s.stack[s.sp.val - 1]? = some t.pc := exec_pcAfter h
  obtain ⟨target, u, hpop, rfl⟩ := execReturn_next h
  obtain ⟨hlive, -, rfl⟩ := State.pop_eq_some hpop
  exact ⟨Nat.sub_add_cancel hlive, hpc, rfl⟩

end

/-- Settles O18: the fault condition of CALL separates the two cases of the stack. -/
theorem callPushesTheNextAddress : Obligations.CallPushesTheNextAddress := by
  refine fun addr s => ⟨decodeWord_encodeWord (i := .call addr) rfl, fun hroom => ?_, fun hfull => ?_⟩
  · refine answers_of_next (if_neg hroom.ne) fun t h => ?_
    obtain ⟨hsp, hpushed, hothers⟩ := exec_call_stack h
    exact ⟨hsp, hpushed, hothers, exec_pcAfter h⟩
  · exact instructionsCompleteUnlessTheirFault.2 (.call addr) s _ (if_pos hfull)

/-- Settles O19: the fault condition of RETURN separates the two cases of the stack. -/
theorem returnPopsTheLastEntry : Obligations.ReturnPopsTheLastEntry := by
  refine fun s => ⟨rfl, fun hlive => ?_, fun hempty => ?_⟩
  · exact answers_of_next (if_neg hlive.ne') fun _ h => exec_ret_stack h
  · exact instructionsCompleteUnlessTheirFault.2 .ret s _ (if_pos hempty)

/-- Settles O20: the entry that RETURN pops is in the slot that CALL wrote. -/
theorem returnResumesAfterTheCall : Obligations.ReturnResumesAfterTheCall := by
  intro addr s t u hcall husp hustack
  obtain ⟨hsp, hpushed, -⟩ := exec_call_stack hcall
  rw [← husp] at hsp
  rw [← hustack] at hpushed
  have hlive : u.sp.val ≠ 0 := by omega
  refine answers_of_next (if_neg hlive) fun r hret => ?_
  obtain ⟨hrsp, hpopped, -⟩ := exec_ret_stack hret
  have hslot : r.sp = s.sp := Fin.ext (by omega)
  rw [hslot, hpushed] at hpopped
  exact ⟨(Option.some.inj hpopped).symm, hslot⟩

end Sys2Proof.Safety

/-! # Register load, arithmetic, logic and random (42_load_arith_logic.md)

Every form of the family is one of two shapes: `loadResult`, which writes `V[x]` alone, and `loadResultAndFlag`, which
writes VF after it. One lemma each says what the next state of the shape is, `loadResult_next` and
`loadResultAndFlag_next`; what is left of a form is the arithmetic of its result and of its flag. -/

namespace Sys2Proof.Safety

open Sys2Proof.Machine

/-! ## What the two shapes do -/

section
variable {x : Reg} {b : Byte} {f : Bool} {s t : State}

/-- The forms that write no flag write `V[x]` and go on; all else stays (R132, D1, D5). -/
theorem loadResult_next (h : loadResult x b s = .next t) :
    t.readReg x = b ∧ t.pc = s.pc + 2 ∧ UnchangedBut [x] [] s t := by
  cases h
  refine ⟨State.readReg_writeReg_same s x b, rfl, fun y hy => ?_, fun p _ => ?_⟩
  · exact State.readReg_writeReg_other s b (List.ne_of_not_mem_cons hy)
  · cases p with
    | stack => exact ⟨rfl, rfl⟩
    | memory => exact fun _ => rfl
    | index | delay | sound | display | keys | latch | report | drawCount => rfl

/-- The flag writers write VF after `V[x]`, so the flag stands and the result is lost when `x` is 15 (R132, C2). -/
theorem loadResultAndFlag_next (h : loadResultAndFlag x b f s = .next t) :
    t.readReg 15 = flagByte f ∧ (x ≠ 15 → t.readReg x = b) ∧ t.pc = s.pc + 2 := by
  cases h
  refine ⟨?_, fun hx => ?_, rfl⟩
  · rw [State.readReg_advance, State.readReg_writeVF, if_pos rfl]
  · rw [State.readReg_advance, State.readReg_writeVF, if_neg hx, State.readReg_writeReg_same]

end

/-! ## Flags and differences as numbers (R132) -/

theorem toNat_flagByte (f : Bool) : (flagByte f).toNat = f.toNat := by
  cases f <;> rfl

theorem toNat_flagByte_carryFlag (a b : Byte) :
    (flagByte (carryFlag a b)).toNat = if a.toNat + b.toNat > 255 then 1 else 0 := by
  rw [toNat_flagByte, carryFlag, Bool.toNat, Bool.cond_decide]

theorem toNat_flagByte_noBorrowFlag (a b : Byte) :
    (flagByte (noBorrowFlag a b)).toNat = if a.toNat ≥ b.toNat then 1 else 0 := by
  rw [toNat_flagByte, noBorrowFlag, Bool.toNat, Bool.cond_decide]

theorem toNat_flagByte_shiftedOutRight (a : Byte) : (flagByte (shiftedOutRight a)).toNat = a.toNat % 2 := by
  rw [toNat_flagByte, shiftedOutRight, BitVec.getLsbD, Nat.toNat_testBit, pow_zero, Nat.div_one]

/-- Nothing stands above bit 7 of a byte. -/
theorem toNat_flagByte_shiftedOutLeft (a : Byte) : (flagByte (shiftedOutLeft a)).toNat = a.toNat / 128 := by
  have ha : a.toNat < 256 := a.isLt
  rw [toNat_flagByte, shiftedOutLeft, BitVec.getLsbD, Nat.toNat_testBit]
  omega

/-- Byte subtraction is the difference modulo 256. -/
theorem toNat_sub_byte (a b : Byte) : ((a - b).toNat : Int) = ((a.toNat : Int) - b.toNat) % 256 := by
  have hb : b.toNat < 256 := b.isLt
  rw [BitVec.toNat_sub]
  omega

/-! ## The flag writers (R126 to R130) -/

/-- Settles O23: the flag is the carry, and byte addition is the sum modulo 256. -/
theorem addWritesTheSumThenTheCarry : Obligations.AddWritesTheSumThenTheCarry := by
  refine fun x y s => ⟨decodeWord_encodeWord (i := .addReg x y) rfl, answers_of_next rfl fun t h => ?_⟩
  obtain ⟨hflag, hresult, hpc⟩ := loadResultAndFlag_next h
  refine ⟨?_, fun hx => ?_, hpc⟩
  · rw [hflag, toNat_flagByte_carryFlag]
  · rw [hresult hx, BitVec.toNat_add]

/-- Settles O24: the flag is no-borrow of the difference that is written. -/
theorem subWritesTheDifferenceThenNoBorrow : Obligations.SubWritesTheDifferenceThenNoBorrow := by
  refine fun x y s => ⟨decodeWord_encodeWord (i := .sub x y) rfl, answers_of_next rfl fun t h => ?_⟩
  obtain ⟨hflag, hresult, hpc⟩ := loadResultAndFlag_next h
  refine ⟨?_, fun hx => ?_, hpc⟩
  · rw [hflag, toNat_flagByte_noBorrowFlag]
  · rw [hresult hx, toNat_sub_byte]

/-- Settles O25: as for SUB, with the operands exchanged in the difference and in the flag. -/
theorem subnWritesTheReverseDifference : Obligations.SubnWritesTheReverseDifference := by
  refine fun x y s => ⟨decodeWord_encodeWord (i := .subn x y) rfl, answers_of_next rfl fun t h => ?_⟩
  obtain ⟨hflag, hresult, hpc⟩ := loadResultAndFlag_next h
  refine ⟨?_, fun hx => ?_, hpc⟩
  · rw [hflag, toNat_flagByte_noBorrowFlag]
  · rw [hresult hx, toNat_sub_byte]

/-- Settles O26: a shift by one halves or doubles, and the meaning of neither shift looks at `y`. -/
theorem shiftsMoveVxByOneThenTheBitShiftedOut : Obligations.ShiftsMoveVxByOneThenTheBitShiftedOut := by
  refine fun x y s => ⟨⟨decodeWord_encodeWord (i := .shr x y) rfl, answers_of_next rfl fun t h => ?_⟩,
    decodeWord_encodeWord (i := .shl x y) rfl, answers_of_next rfl fun t h => ?_⟩
  · obtain ⟨hflag, hresult, hpc⟩ := loadResultAndFlag_next h
    refine ⟨?_, fun hx => ?_, hpc, fun _ => h⟩
    · rw [hflag, toNat_flagByte_shiftedOutRight]
    · rw [hresult hx, BitVec.toNat_ushiftRight, Nat.shiftRight_one]
  · obtain ⟨hflag, hresult, hpc⟩ := loadResultAndFlag_next h
    refine ⟨?_, fun hx => ?_, hpc, fun _ => h⟩
    · rw [hflag, toNat_flagByte_shiftedOutLeft]
    · rw [hresult hx, BitVec.toNat_shiftLeft, Nat.shiftLeft_eq, pow_one, Nat.mul_comm]

/-! ## The forms that write no flag (R120 to R125, R131) -/

/-- Settles O21: the byte written is the operand itself. -/
theorem loadsWriteTheirOperand : Obligations.LoadsWriteTheirOperand :=
  fun x y kk _ => ⟨
    ⟨decodeWord_encodeWord (i := .ldImm x kk) rfl, answers_of_next rfl fun _ h => loadResult_next h⟩,
    decodeWord_encodeWord (i := .ldReg x y) rfl, answers_of_next rfl fun _ h => loadResult_next h⟩

/-- Settles O22: the four forms differ in the byte they write alone. -/
theorem flaglessOperationsWriteVxOnly : Obligations.FlaglessOperationsWriteVxOnly := by
  refine fun x y kk s => ⟨⟨?_, answers_of_next rfl fun t h => ?_⟩, ⟨?_, answers_of_next rfl fun t h => ?_⟩,
    ⟨?_, answers_of_next rfl fun t h => ?_⟩, ?_, answers_of_next rfl fun t h => ?_⟩
  · exact decodeWord_encodeWord (i := .addImm x kk) rfl
  · obtain ⟨hresult, hrest⟩ := loadResult_next h
    exact ⟨by rw [hresult, BitVec.toNat_add], hrest⟩
  · exact decodeWord_encodeWord (i := .or x y) rfl
  · obtain ⟨hresult, hrest⟩ := loadResult_next h
    exact ⟨fun k _ => by rw [hresult, BitVec.getLsbD_or], hrest⟩
  · exact decodeWord_encodeWord (i := .and x y) rfl
  · obtain ⟨hresult, hrest⟩ := loadResult_next h
    exact ⟨fun k _ => by rw [hresult, BitVec.getLsbD_and], hrest⟩
  · exact decodeWord_encodeWord (i := .xor x y) rfl
  · obtain ⟨hresult, hrest⟩ := loadResult_next h
    exact ⟨fun k _ => by rw [hresult, BitVec.getLsbD_xor], hrest⟩

/-- Settles O27: the draw is counted before the masked byte is written, and the write leaves the count. -/
theorem rndMasksAFreeByte : Obligations.RndMasksAFreeByte := by
  refine fun x kk s => ⟨decodeWord_encodeWord (i := .rnd x kk) rfl, answers_of_next rfl fun t h => ?_⟩
  have hload : loadResult x (Config.rand s.draws &&& kk) s.countDraw = .next t := h
  obtain ⟨hresult, hpc, hregs, hparts⟩ := loadResult_next hload
  refine ⟨hresult, hparts .drawCount List.not_mem_nil, fun k hk => ?_, fun hx => ?_, hpc⟩
  · rw [hresult, BitVec.getLsbD_and, Bool.and_eq_true] at hk
    exact hk.2
  · exact hregs 15 (mt List.mem_singleton.mp hx.symm)

end Sys2Proof.Safety

/-! # Index register and memory, and the frames of the register, index, timer and storing forms (43_index_memory.md)

A frame is put together from one rule per state operation, `UnchangedBut.setI` and its like, along the operations that
the meaning makes. What a store at `I` does is said once for every block of bytes (`readByte_of_storeAtI`,
`readByte_of_storeAtI_outside`, `storeAtI_unchanged`), and what a load from `I` does in `readReg_of_execLoadRegs` and
`execLoadRegs_unchanged`. -/

namespace Sys2Proof.Safety

open Sys2Proof.Machine

/-! ## One frame rule per state operation (R8, D1) -/

section
variable {regs : List Reg} {parts : List Part} {s t u : State}

theorem UnchangedBut.refl (regs : List Reg) (parts : List Part) (s : State) : UnchangedBut regs parts s s := by
  refine ⟨fun _ _ => rfl, fun p _ => ?_⟩
  cases p with
  | stack => exact ⟨rfl, rfl⟩
  | memory => exact fun _ => rfl
  | _ => rfl

/-- A frame does not speak of `PC`. -/
theorem UnchangedBut.advance (h : UnchangedBut regs parts s t) : UnchangedBut regs parts s t.advance := by
  obtain ⟨hregs, hparts⟩ := h
  refine ⟨hregs, fun p hp => ?_⟩
  cases p <;> exact hparts _ hp

theorem UnchangedBut.writeReg {x : Reg} (h : UnchangedBut regs parts s t) (hx : x ∈ regs) (b : Byte) :
    UnchangedBut regs parts s (t.writeReg x b) := by
  obtain ⟨hregs, hparts⟩ := h
  refine ⟨fun y hy => ?_, fun p hp => ?_⟩
  · rw [State.readReg_writeReg_other t b (ne_of_mem_of_not_mem hx hy).symm, hregs y hy]
  · cases p <;> exact hparts _ hp

/-- A block loaded into registers writes one after the other. -/
theorem UnchangedBut.writeRegsFrom {k : Nat} {bs : List Byte} (h : UnchangedBut regs parts s t)
    (hin : ∀ y : Reg, k ≤ y.val → y.val < k + bs.length → y ∈ regs) :
    UnchangedBut regs parts s (t.writeRegsFrom k bs) := by
  induction bs generalizing t k with
  | nil => exact h
  | cons b bs ih =>
    rw [List.length_cons] at hin
    unfold State.writeRegsFrom
    split
    next hk => exact ih (h.writeReg (hin ⟨k, hk⟩ le_rfl (by simp)) b) fun y _ _ => hin y (by omega) (by omega)
    next => exact h

/-- An update of one part keeps a frame that leaves that part out. -/
theorem UnchangedBut.updatePart {q : Part} (h : UnchangedBut regs parts s t) (hq : q ∈ parts)
    (hreg : ∀ x, u.readReg x = t.readReg x) (hother : ∀ p, p = q ∨ (partUnchanged p s t → partUnchanged p s u)) :
    UnchangedBut regs parts s u := by
  obtain ⟨hregs, hparts⟩ := h
  refine ⟨fun x hx => (hreg x).trans (hregs x hx), fun p hp => ?_⟩
  rcases hother p with rfl | hkeep
  · exact absurd hq hp
  · exact hkeep (hparts p hp)

theorem UnchangedBut.setI (h : UnchangedBut regs parts s t) (hpart : .index ∈ parts) (a : Word) :
    UnchangedBut regs parts s (t.setI a) :=
  h.updatePart hpart (State.readReg_setI t a) fun p => by cases p <;> simp [partUnchanged]

theorem UnchangedBut.setDT (h : UnchangedBut regs parts s t) (hpart : .delay ∈ parts) (b : Byte) :
    UnchangedBut regs parts s (t.setDT b) :=
  h.updatePart hpart (State.readReg_setDT t b) fun p => by cases p <;> simp [partUnchanged]

theorem UnchangedBut.setST (h : UnchangedBut regs parts s t) (hpart : .sound ∈ parts) (b : Byte) :
    UnchangedBut regs parts s (t.setST b) :=
  h.updatePart hpart (State.readReg_setST t b) fun p => by cases p <;> simp [partUnchanged]

theorem UnchangedBut.setMem (h : UnchangedBut regs parts s t) (hpart : .memory ∈ parts) (m : Memory) :
    UnchangedBut regs parts s (t.setMem m) :=
  h.updatePart hpart (State.readReg_setMem t m) fun p => by cases p <;> simp [partUnchanged]

theorem UnchangedBut.countDraw (h : UnchangedBut regs parts s t) (hpart : .drawCount ∈ parts) :
    UnchangedBut regs parts s t.countDraw :=
  h.updatePart hpart (State.readReg_countDraw t) fun p => by cases p <;> simp [partUnchanged]

end

/-! ## Frames of the forms that write registers (R120 to R131, R145, R162, R163) -/

section
variable {x : Reg} {b : Byte} {f : Bool} {s t : State}

theorem loadResult_unchanged (h : loadResult x b s = .next t) : UnchangedBut [x] [] s t := by
  obtain ⟨-, -, hframe⟩ := loadResult_next h
  exact hframe

theorem loadResultAndFlag_unchanged (h : loadResultAndFlag x b f s = .next t) : UnchangedBut [x, 15] [] s t := by
  cases h
  exact (((UnchangedBut.refl _ _ s).writeReg (by simp) b).writeReg (by simp) (flagByte f)).advance

/-- A key wait that polls changes nothing. -/
theorem execLdKey_unchanged (h : execLdKey x s = .next t) : UnchangedBut [x] [] s t := by
  rcases execLdKey_next h with rfl | ⟨b, rfl⟩
  · exact .refl _ _ _
  · exact loadResult_unchanged rfl

theorem execRnd_unchanged {kk : Byte} (h : execRnd x kk s = .next t) : UnchangedBut [x] [.drawCount] s t := by
  cases h
  exact (((UnchangedBut.refl _ _ s).countDraw (by simp)).writeReg (by simp) _).advance

/-- As many bytes are loaded as there are registers up to `V[x]`. -/
theorem execLoadRegs_unchanged (h : execLoadRegs x s = .next t) :
    UnchangedBut ((List.finRange 16).filter fun k => k ≤ x) [] s t := by
  obtain rfl := execLoadRegs_next h
  refine ((UnchangedBut.refl _ _ s).writeRegsFrom fun y _ hy => ?_).advance
  rw [Memory.length_readBytes] at hy
  simp only [List.mem_filter, List.mem_finRange, true_and, decide_eq_true_eq, Fin.le_def]
  omega

end

/-- Settles O41: most forms are one of the two result shapes; the key wait, the draw and the block load have their own
frames. -/
theorem registerFormsChangeOnlyTheirDestination : Obligations.RegisterFormsChangeOnlyTheirDestination := by
  refine ⟨fun x y kk s t => ?_, fun x y s t => ?_, fun x kk s t h => execRnd_unchanged h,
    fun x s t h => execLoadRegs_unchanged h⟩
  · have hload {b : Byte} (h : loadResult x b s = .next t) := loadResult_unchanged h
    simp only [List.forall_mem_cons, List.not_mem_nil, false_imp_iff, implies_true, and_true]
    exact ⟨hload, hload, hload, hload, hload, hload, hload, execLdKey_unchanged⟩
  · have hload {b : Byte} {f : Bool} (h : loadResultAndFlag x b f s = .next t) := loadResultAndFlag_unchanged h
    simp only [List.forall_mem_cons, List.not_mem_nil, false_imp_iff, implies_true, and_true]
    exact ⟨hload, hload, hload, hload, hload⟩

/-! ## Frames of the forms that write `I` or a timer (R140 to R142, R164, R165) -/

/-- Settles O43: each form sets its target and goes on. -/
theorem indexAndTimerFormsChangeOnlyTheirTarget : Obligations.IndexAndTimerFormsChangeOnlyTheirTarget := by
  refine ⟨fun x addr s t => ?_, fun x s t h => ?_, fun x s t h => ?_⟩
  · have hset (a : Word) : UnchangedBut [] [.index] s (s.setI a).advance :=
      ((UnchangedBut.refl _ _ s).setI (by simp) a).advance
    simp only [List.forall_mem_cons, List.not_mem_nil, false_imp_iff, implies_true, and_true]
    refine ⟨fun h => ?_, fun h => ?_, fun h => ?_⟩ <;> cases h <;> exact hset _
  · cases h
    exact ((UnchangedBut.refl _ _ s).setDT (by simp) _).advance
  · cases h
    exact ((UnchangedBut.refl _ _ s).setST (by simp) _).advance

/-! ## What a store at `I` and a load from `I` do (R143 to R146, D7) -/

section
variable {bytes : List Byte} {x : Reg} {s t : State}

theorem storeAtI_unchanged (h : storeAtI bytes s = .next t) : UnchangedBut [] [.memory] s t := by
  obtain ⟨-, rfl⟩ := storeAtI_next h
  exact ((UnchangedBut.refl _ _ s).setMem (by simp) _).advance

/-- A store leaves every byte outside its block. -/
theorem readByte_of_storeAtI_outside {a : Nat} (h : storeAtI bytes s = .next t)
    (ha : a < s.i.toNat ∨ s.i.toNat + bytes.length ≤ a) : Memory.readByte t.mem a = Memory.readByte s.mem a := by
  obtain ⟨-, rfl⟩ := storeAtI_next h
  exact Memory.readByte_writeBytes_outside _ _ _ _ ha

/-- A number that fits a byte is stored as that number. -/
theorem toNat_readByte_of_storeAtI {k n : Nat} (h : storeAtI bytes s = .next t)
    (hb : bytes[k]? = some (BitVec.ofNat 8 n)) (hn : n < 2 ^ 8) :
    (Memory.readByte t.mem (s.i.toNat + k)).toNat = n := by
  rw [readByte_of_storeAtI h hb, BitVec.toNat_ofNat, Nat.mod_eq_of_lt hn]

/-- Each register up to `V[x]` is loaded from its effective address. -/
theorem readReg_of_execLoadRegs {k : Reg} (h : execLoadRegs x s = .next t) (hk : k ≤ x) :
    t.readReg k = Memory.readByte s.mem (s.i.toNat + k.val) := by
  have hlt : k.val < x.val + 1 := Nat.lt_succ_of_le hk
  obtain rfl := execLoadRegs_next h
  rw [State.readReg_advance, State.readReg_writeRegsFrom, if_pos (Nat.zero_le _), Nat.sub_zero,
    Memory.getElem?_readBytes _ _ _ _ hlt, Option.getD_some]
  rfl

theorem readReg_of_execLoadRegs_above {k : Reg} (h : execLoadRegs x s = .next t) (hk : x < k) :
    t.readReg k = s.readReg k := by
  obtain ⟨hregs, -⟩ := execLoadRegs_unchanged h
  exact hregs k (by simpa using hk)

end

/-- Settles O44: both forms store a block at `I`, of 3 and of `x + 1` bytes. -/
theorem storingFormsChangeOnlyTheStoredBytes : Obligations.StoringFormsChangeOnlyTheStoredBytes := by
  refine ⟨fun x s t h => ⟨storeAtI_unchanged h, ?_⟩, fun x s t h => ⟨storeAtI_unchanged h, ?_⟩⟩
  · rintro _ rfl a ha
    exact readByte_of_storeAtI_outside h ha
  · rintro _ rfl a ha
    rw [← length_registerBlock s x] at ha
    exact readByte_of_storeAtI_outside h ha

/-- Settles O30: the block stored is the three digits, each of which fits a byte. -/
theorem storeBcdWritesThreeDigits : Obligations.StoreBcdWritesThreeDigits := by
  refine fun x s => ⟨decodeWord_encodeWord (i := .ldB x) rfl, fun hin => ?_, fun hout => ?_⟩
  · have hnone : faultCondition (.ldB x) s = none := if_neg (by omega)
    refine answers_of_next hnone fun t h => ?_
    have hbyte : (s.readReg x).toNat < 2 ^ 8 := (s.readReg x).isLt
    obtain ⟨hregs, hparts⟩ := storeAtI_unchanged h
    exact ⟨toNat_readByte_of_storeAtI (k := 0) h rfl (by omega), toNat_readByte_of_storeAtI (k := 1) h rfl (by omega),
      toNat_readByte_of_storeAtI (k := 2) h rfl (by omega), fun a ha => readByte_of_storeAtI_outside h ha,
      hparts .index (by simp), hregs x (by simp), exec_pcAfter h⟩
  · exact instructionsCompleteUnlessTheirFault.2 (.ldB x) s _ (if_pos (by omega))

/-- Settles O31: the block stored is `V[0]` to `V[x]`. -/
theorem registerDumpStoresV0ToVx : Obligations.RegisterDumpStoresV0ToVx := by
  refine fun x s => ⟨decodeWord_encodeWord (i := .storeRegs x) rfl, fun hin => ?_, fun hout => ?_⟩
  · have hnone : faultCondition (.storeRegs x) s = none := if_neg hin.not_gt
    refine answers_of_next hnone fun t h => ?_
    obtain ⟨-, hparts⟩ := storeAtI_unchanged h
    refine ⟨fun k hk => readByte_of_storeAtI h (getElem?_registerBlock s x k hk), fun a ha => ?_,
      hparts .index (by simp), exec_pcAfter h⟩
    exact readByte_of_storeAtI_outside h (by rw [length_registerBlock]; omega)
  · exact instructionsCompleteUnlessTheirFault.2 (.storeRegs x) s _ (if_pos hout)

/-- Settles O32: registers up to `V[x]` are loaded, and the frame covers the higher ones and `I`. -/
theorem registerLoadFillsV0ToVx : Obligations.RegisterLoadFillsV0ToVx := by
  refine fun x s => ⟨decodeWord_encodeWord (i := .loadRegs x) rfl, fun hin => ?_, fun hout => ?_⟩
  · have hnone : faultCondition (.loadRegs x) s = none := if_neg hin.not_gt
    refine answers_of_next hnone fun t h => ?_
    obtain ⟨-, hparts⟩ := execLoadRegs_unchanged h
    exact ⟨fun k hk => readReg_of_execLoadRegs h hk, fun k hk => readReg_of_execLoadRegs_above h hk,
      hparts .index (by simp), exec_pcAfter h⟩
  · exact instructionsCompleteUnlessTheirFault.2 (.loadRegs x) s _ (if_pos hout)

/-- Settles O33: the load reads the block that the store wrote, at the `I` that the store left (D7), and so inside the
same bounds. -/
theorem dumpThenLoadRestoresTheRegisters : Obligations.DumpThenLoadRestoresTheRegisters := by
  intro x s t u hstore hmem hi
  obtain ⟨-, hparts⟩ := storeAtI_unchanged hstore
  have hsame : u.i = s.i := hi.trans (hparts .index (by simp))
  obtain ⟨hin, -⟩ := storeAtI_next hstore
  rw [length_registerBlock, ← hsame] at hin
  have hnone : faultCondition (.loadRegs x) u = none := if_neg (by omega)
  refine answers_of_next hnone fun r hload k hk => ?_
  rw [readReg_of_execLoadRegs hload hk, hmem, hsame, readByte_of_storeAtI hstore (getElem?_registerBlock s x k hk)]

/-! ## What is put into `I` (R140 to R142) -/

/-- Settles O28: the operand is the address. -/
theorem loadIndexZeroExtendsTheAddress : Obligations.LoadIndexZeroExtendsTheAddress :=
  fun addr _ => ⟨decodeWord_encodeWord (i := .ldI addr) rfl, _, rfl, toNat_addrOperand addr, rfl⟩

/-- The sum of `I` and a byte wraps at 16 bits (D8). -/
theorem toNat_add_byteOperand (a : Word) (b : Byte) : (a + byteOperand b).toNat = (a.toNat + b.toNat) % 65536 := by
  rw [BitVec.toNat_add, byteOperand, BitVec.toNat_setWidth_of_le (by decide)]

/-- The address of a glyph is exact for every byte (D9). -/
theorem toNat_glyphAddress (d : Byte) : (glyphAddress d).toNat = 5 * d.toNat := by
  simp only [glyphAddress, Config.glyphSize, BitVec.toNat_ofNat]
  omega

/-- Settles O29: both forms set `I` alone. -/
theorem addIndexAndGlyphAddress : Obligations.AddIndexAndGlyphAddress :=
  fun x _ => ⟨
    ⟨decodeWord_encodeWord (i := .addI x) rfl, _, rfl, toNat_add_byteOperand _ _, rfl, rfl⟩,
    decodeWord_encodeWord (i := .ldF x) rfl, _, rfl, toNat_glyphAddress _, rfl, rfl⟩

end Sys2Proof.Safety

/-! # Display: CLS and DRW, what they draw and what they leave (44_display.md)

`execDrw_drawn` says what one draw does in the spec's words, through `SpriteCovers`; both statements on DRW follow from
it, and the second draw reads the sprite of the first because the frame keeps memory and `I`. -/

namespace Sys2Proof.Safety

open Sys2Proof.Machine

/-! ## CLS (R150) -/

/-- Settles O35: the display set is the blank one, and it is no register and no memory. -/
theorem clearScreenDarkensEveryPixel : Obligations.ClearScreenDarkensEveryPixel :=
  fun _ => ⟨decodeWord_encodeWord (i := .cls) rfl, _, rfl, Display.pixel_blank, rfl, rfl, rfl, rfl⟩

/-! ## Frames of CLS, DRW and SYS (R100, R150, R151, D1) -/

theorem UnchangedBut.setDisp {regs : List Reg} {parts : List Part} {s t : State} (h : UnchangedBut regs parts s t)
    (hpart : .display ∈ parts) (d : Display) : UnchangedBut regs parts s (t.setDisp d) :=
  h.updatePart hpart (State.readReg_setDisp t d) fun p => by cases p <;> simp [partUnchanged]

theorem execDrw_unchanged {x y : Reg} {n : Fin 16} {s t : State} (h : execDrw x y n s = .next t) :
    UnchangedBut [15] [.display] s t := by
  obtain ⟨d, f, rfl⟩ := execDrw_next h
  exact (((UnchangedBut.refl _ _ s).setDisp (by simp) d).writeReg (by simp) (flagByte f)).advance

/-- Settles O45: CLS sets the display, DRW writes VF after it, and SYS is a report. -/
theorem displayFormsChangeOnlyTheDisplayAndVF : Obligations.DisplayFormsChangeOnlyTheDisplayAndVF := by
  refine ⟨fun s t h => ?_, fun x y n s t h => execDrw_unchanged h, fun addr s t h => ?_⟩
  · cases h
    exact ((UnchangedBut.refl _ _ s).setDisp (by simp) _).advance
  · cases h
    exact reportUnrecognized_unchanged _ s

/-! ## Which pixels a sprite covers (R151, R152) -/

section
variable {s : State} {px py : Byte} {n : Nat}

/-- The bits 1 that the drawing engine goes through stand on the pixels that the sprite covers. -/
theorem mem_spriteBits_iff_spriteCovers {X : Fin 64} {Y : Fin 32} :
    (X, Y, true) ∈ spriteBits px py 0 (spriteBytes s n) ↔ SpriteCovers s px py n X Y := by
  rw [mem_spriteBits]
  constructor
  · rintro ⟨c, r, b, hc, hb, hplace⟩
    have hr : r < n := by simpa [spriteBytes] using (List.getElem?_eq_some_iff.mp hb).1
    rw [spriteBytes, Memory.getElem?_readBytes _ _ _ _ hr, Option.some.injEq] at hb
    simp only [Prod.mk.injEq] at hplace
    obtain ⟨rfl, rfl, hbit⟩ := hplace
    refine ⟨c, r, hc, hr, rfl, by simp [wrapRow], ?_⟩
    rw [hbit, ← hb]
    rfl
  · rintro ⟨c, r, hc, hr, hX, hY, hbit⟩
    refine ⟨c, r, _, hc, Memory.getElem?_readBytes _ _ _ _ hr, ?_⟩
    refine Prod.ext (Fin.ext hX.symm) (Prod.ext (Fin.ext ?_) hbit.symm)
    simpa [wrapRow] using hY.symm

/-- The pixels covered depend on memory and `I` alone. -/
theorem spriteCovers_congr {t : State} (hmem : ∀ a, Memory.readByte t.mem a = Memory.readByte s.mem a)
    (hi : t.i = s.i) : SpriteCovers t px py n = SpriteCovers s px py n := by
  funext X Y
  simp only [SpriteCovers, hmem, hi]

theorem exists_spriteBit_of_ne_zero {b : Byte} (h : b ≠ 0) : ∃ c < 8, b.getLsbD (7 - c) = true := by
  by_contra! hdark
  refine h (BitVec.eq_of_getLsbD_eq fun k hk => ?_)
  have hbit := hdark (7 - k) (by omega)
  rw [Nat.sub_sub_self (by omega)] at hbit
  simpa using hbit

/-- A sprite covers some pixel exactly when one of its rows is not zero. -/
theorem exists_spriteCovers_iff :
    (∃ X Y, SpriteCovers s px py n X Y) ↔ ∃ r < n, Memory.readByte s.mem (s.i.toNat + r) ≠ 0 := by
  constructor
  · rintro ⟨X, Y, c, r, -, hr, -, -, hbit⟩
    refine ⟨r, hr, fun hzero => ?_⟩
    simp [hzero] at hbit
  · rintro ⟨r, hr, hrow⟩
    obtain ⟨c, hc, hbit⟩ := exists_spriteBit_of_ne_zero hrow
    exact ⟨wrapColumn px c, wrapRow py r, c, r, hc, hr, rfl, rfl, hbit⟩

end

/-! ## What one draw does (R151) -/

theorem flagByte_eq_one_iff {f : Bool} : flagByte f = 1 ↔ f = true := by cases f <;> decide

/-- A draw that completes toggles the covered pixels and no other, and leaves VF, which it writes last, at 1 exactly when
a covered pixel was lit. -/
theorem execDrw_drawn {x y : Reg} {n : Fin 16} {s t : State} (h : execDrw x y n s = .next t) :
    (∀ X Y, SpriteCovers s (s.readReg x) (s.readReg y) n.val X Y →
      Display.pixel t.disp X Y = !(Display.pixel s.disp X Y)) ∧
    (∀ X Y, ¬ SpriteCovers s (s.readReg x) (s.readReg y) n.val X Y →
      Display.pixel t.disp X Y = Display.pixel s.disp X Y) ∧
    (t.readReg 15 = 1 ↔
      ∃ X Y, SpriteCovers s (s.readReg x) (s.readReg y) n.val X Y ∧ Display.pixel s.disp X Y = true) := by
  have hlen : (spriteBytes s n.val).length ≤ 32 := by rw [spriteBytes, Memory.length_readBytes]; omega
  obtain ⟨hpixel, hflag⟩ := drawRows_spec (s.readReg x) (s.readReg y) _ (s.disp, false) hlen
  simp only [mem_spriteBits_iff_spriteCovers] at hflag
  cases (checkAccess_eq_next h).2
  refine ⟨fun X Y hin => (hpixel X Y).trans ?_, fun X Y hout => (hpixel X Y).trans ?_, ?_⟩
  · rw [decide_eq_true (mem_spriteBits_iff_spriteCovers.mpr hin), Bool.xor_true]
  · rw [decide_eq_false (mt mem_spriteBits_iff_spriteCovers.mp hout), Bool.xor_false]
  · rw [State.readReg_advance, State.readReg_writeVF, if_pos rfl, flagByte_eq_one_iff]
    simpa using hflag

/-- Settles O36: a pixel erased is a covered one that was lit, and a covered one that was lit is erased. -/
theorem drawXorsTheSpriteAndFlagsErasure : Obligations.DrawXorsTheSpriteAndFlagsErasure := by
  refine fun x y n s => ⟨decodeWord_encodeWord (i := .drw x y n) rfl, fun hin => ?_, fun hpos hout => ?_⟩
  · have hnone : faultCondition (.drw x y n) s = none := if_neg (by omega)
    refine answers_of_next hnone fun t h => ?_
    obtain ⟨hcovered, huncovered, hvf⟩ := execDrw_drawn h
    refine ⟨hcovered, huncovered, ?_, fun hkept => ?_, exec_pcAfter h⟩
    · rintro ⟨X, Y, hlit, hdark⟩
      have hcovers : SpriteCovers s (s.readReg x) (s.readReg y) n.val X Y := by
        by_contra hnot
        simp [huncovered X Y hnot, hlit] at hdark
      exact hvf.mpr ⟨X, Y, hcovers, hlit⟩
    · refine (exec_vf_of_writesFlag rfl h).resolve_right (mt hvf.mp ?_)
      rintro ⟨X, Y, hcovers, hlit⟩
      have hstill := hkept X Y hlit
      simp [hcovered X Y hcovers, hlit] at hstill
  · exact instructionsCompleteUnlessTheirFault.2 (.drw x y n) s _ (if_pos ⟨hpos, hout⟩)

/-- Settles O37: both draws cover the same pixels, so each is toggled twice or never; on a dark display the first draw
lights exactly these, and the second erases them. -/
theorem drawingTwiceRestoresTheDisplay : Obligations.DrawingTwiceRestoresTheDisplay := by
  intro x y n s t t' u hfirst hdisp hmem hi hx hy hsecond
  obtain ⟨-, hparts⟩ := execDrw_unchanged hfirst
  have hsame : SpriteCovers t' (s.readReg x) (s.readReg y) n.val = SpriteCovers s (s.readReg x) (s.readReg y) n.val :=
    spriteCovers_congr (fun a => hmem ▸ hparts .memory (by simp) a) (hi.trans (hparts .index (by simp)))
  obtain ⟨hcovered, huncovered, hvf⟩ := execDrw_drawn hfirst
  obtain ⟨hcovered', huncovered', hvf'⟩ := execDrw_drawn hsecond
  rw [hx, hy, hsame, hdisp] at hcovered' huncovered' hvf'
  refine ⟨fun X Y => ?_, fun hdark => ⟨?_, ?_⟩⟩
  · by_cases hcovers : SpriteCovers s (s.readReg x) (s.readReg y) n.val X Y
    · rw [hcovered' X Y hcovers, hcovered X Y hcovers, Bool.not_not]
    · rw [huncovered' X Y hcovers, huncovered X Y hcovers]
  · exact (exec_vf_of_writesFlag rfl hfirst).resolve_right (mt hvf.mp (by simp [hdark]))
  · have hlit X Y (hcovers : SpriteCovers s (s.readReg x) (s.readReg y) n.val X Y) :
        Display.pixel t.disp X Y = true := by
      rw [hcovered X Y hcovers, hdark X Y, Bool.not_false]
    rw [hvf', ← exists_spriteCovers_iff (px := s.readReg x) (py := s.readReg y)]
    exact exists₂_congr fun X Y => and_iff_left_of_imp (hlit X Y)

end Sys2Proof.Safety

/-! # Timers and keypad, and the frames of the control forms (45_timers_keypad.md)

A key skip and a key wait are each said once for the key they find (`skipOnKey_of_toNat`, `exec_ldKey_of_lowest`,
`exec_ldKey_of_no_key`). A core whose every step only ticks runs to the iterate of the tick (`run_eq_iterate_beginStep`);
a wait in which no key is pressed is such a run. -/

namespace Sys2Proof.Safety

open Sys2Proof.Machine

/-! ## The timers (R162, R164, R165) -/

/-- Settles O38: each form moves one byte and goes on. -/
theorem timerInstructionsMoveTheTimers : Obligations.TimerInstructionsMoveTheTimers :=
  fun x s =>
    ⟨⟨decodeWord_encodeWord (i := .ldFromDT x) rfl, _, rfl, State.readReg_writeReg_same s x s.dt, rfl, rfl⟩,
      ⟨decodeWord_encodeWord (i := .ldDT x) rfl, _, rfl, rfl, rfl⟩,
      ⟨decodeWord_encodeWord (i := .ldST x) rfl, _, rfl, rfl, rfl⟩⟩

/-! ## The key skips (R160, R161, R195) -/

section
variable {x : Reg} {pressed : Bool} {s : State} {k : Fin 16}

theorem skipOnKey_of_toNat (hk : (s.readReg x).toNat = k.val) :
    skipOnKey x pressed s = .next (s.skipIf (s.key.get k == pressed)) := by
  rcases keyIndex_cases (s.readReg x) with ⟨hhigh, -⟩ | ⟨j, hj, hkey⟩
  · omega
  · obtain rfl : j = k := Fin.ext (hj.trans hk)
    rw [skipOnKey, hkey]

/-- An instruction that skips on a level of the key `k` goes on at `PC + 4` exactly when the key has that level. -/
theorem answers_of_skipOnKey {i : Instr} (hexec : exec i s = skipOnKey x pressed s)
    (hk : (s.readReg x).toNat = k.val) :
    Answers i s fun t => t.key = s.key ∧ t.pc = if s.key.get k = pressed then s.pc + 4 else s.pc + 2 :=
  ⟨_, hexec.trans (skipOnKey_of_toNat hk), State.skipIf_key _ s, skipIf_pc_eq_skipPC beq_iff_eq s⟩

end

/-- Settles O39: the two forms skip on the two levels, and their fault condition is the index above 15. -/
theorem keySkipsReadTheKeyLevel : Obligations.KeySkipsReadTheKeyLevel := by
  refine fun x s => ⟨?_, ?_, fun k hk => ⟨?_, ?_⟩, fun hhigh => ⟨?_, ?_⟩⟩
  · exact decodeWord_encodeWord (i := .skp x) rfl
  · exact decodeWord_encodeWord (i := .sknp x) rfl
  · exact answers_of_skipOnKey rfl hk
  · exact answers_of_skipOnKey rfl hk
  · exact instructionsCompleteUnlessTheirFault.2 (.skp x) s _ (if_pos hhigh)
  · exact instructionsCompleteUnlessTheirFault.2 (.sknp x) s _ (if_pos hhigh)

/-! ## A run in which every step only ticks (R81) -/

theorem UnchangedBut.beginStep {regs : List Reg} {parts : List Part} {s t : State} (h : UnchangedBut regs parts s t)
    (hsub : [Part.delay, .sound, .report] ⊆ parts) : UnchangedBut regs parts s t.beginStep := by
  obtain ⟨hregs, hparts⟩ := h
  refine ⟨hregs, fun p hp => ?_⟩
  cases p with
  | delay | sound | report => exact absurd (hsub (by decide)) hp
  | _ => exact hparts _ hp

theorem iterate_beginStep_pc (n : Nat) (s : State) : (State.beginStep^[n] s).pc = s.pc := by
  induction n with
  | zero => rfl
  | succ n ih => rw [Function.iterate_succ_apply', State.beginStep_pc, ih]

theorem toNat_iterate_tickTimer (n : Nat) (b : Byte) : (tickTimer^[n] b).toNat = b.toNat - n := by
  induction n with
  | zero => rfl
  | succ n ih => rw [Function.iterate_succ_apply', toNat_tickTimer, ih, Nat.sub_sub]

theorem toNat_iterate_beginStep_dt (n : Nat) (s : State) : (State.beginStep^[n] s).dt.toNat = s.dt.toNat - n := by
  have hticks : Function.Semiconj State.dt State.beginStep tickTimer := State.beginStep_dt
  rw [(hticks.iterate_right n).eq, toNat_iterate_tickTimer]

theorem toNat_iterate_beginStep_st (n : Nat) (s : State) : (State.beginStep^[n] s).st.toNat = s.st.toNat - n := by
  have hticks : Function.Semiconj State.st State.beginStep tickTimer := State.beginStep_st
  rw [(hticks.iterate_right n).eq, toNat_iterate_tickTimer]

theorem iterate_beginStep_unchanged (n : Nat) (s : State) :
    UnchangedBut [] [.delay, .sound, .report] s (State.beginStep^[n] s) := by
  induction n with
  | zero => exact .refl _ _ s
  | succ n ih =>
    rw [Function.iterate_succ_apply']
    exact ih.beginStep (List.Subset.refl _)

/-- A run of one step more goes on from what the first step answers. -/
theorem run_succ_of_step (n : Nat) {s t : State} (h : step s = .next t) :
    Host.Core.run core (n + 1) s = Host.Core.run core n t := by
  have hcore : core.step s = .next t := h
  simp only [Host.Core.run, hcore]

/-- Where a condition that the tick keeps makes a step no more than the tick, a run only ticks. -/
theorem run_eq_iterate_beginStep {P : State → Prop} (hkeep : ∀ u, P u → P u.beginStep)
    (hstep : ∀ u, P u → step u = .next u.beginStep) (n : Nat) {s : State} (hs : P s) :
    Host.Core.run core n s = .next (State.beginStep^[n] s) := by
  induction n generalizing s with
  | zero => rfl
  | succ n ih =>
    rw [run_succ_of_step n (hstep s hs)]
    exact ih (hkeep s hs)

/-! ## The key wait (R163) -/

section
variable {x : Reg} {s : State} {k : Fin 16}

theorem lowestPressed_eq_some {keys : Vector Bool 16} (hk : keys.get k = true) (hlow : ∀ j < k, keys.get j = false) :
    lowestPressed keys = some k := by
  rcases lowestPressed_cases keys with ⟨hup, -⟩ | ⟨j, hj, hjlow, hfound⟩
  · simp [hup k] at hk
  · rcases lt_trichotomy j k with hlt | rfl | hgt
    · simp [hlow j hlt] at hj
    · exact hfound
    · simp [hjlow k hgt] at hk

theorem exec_ldKey_of_lowest (hk : s.key.get k = true) (hlow : ∀ j < k, s.key.get j = false) :
    exec (.ldKey x) s = .next (s.writeReg x (BitVec.ofNat 8 k.val)).advance := by
  rw [exec, execLdKey, lowestPressed_eq_some hk hlow]

theorem exec_ldKey_of_no_key (hup : ∀ k, s.key.get k = false) : exec (.ldKey x) s = .next s := by
  rcases lowestPressed_cases s.key with ⟨-, hnone⟩ | ⟨j, hj, -⟩
  · rw [exec, execLdKey, hnone]
  · simp [hup j] at hj

/-- A step that polls is the tick alone, so the wait goes on in the same way (R23). -/
theorem run_keyWait (hruns : Runs s (.ldKey x)) (hup : ∀ k, s.key.get k = false) (n : Nat) :
    Host.Core.run core n s = .next (State.beginStep^[n] s) :=
  run_eq_iterate_beginStep (P := fun u => Runs u (.ldKey x) ∧ ∀ k, u.key.get k = false) (fun _ h => h)
    (fun _ ⟨hruns, hup⟩ => (step_of_runs hruns).trans (exec_ldKey_of_no_key hup)) n ⟨hruns, hup⟩

end

/-- Settles O40: the key found is the lowest one pressed, and a run of polls is the iterated tick. -/
theorem keyWaitTakesTheLowestKeyOrPolls : Obligations.KeyWaitTakesTheLowestKeyOrPolls := by
  refine fun x s => ⟨decodeWord_encodeWord (i := .ldKey x) rfl, fun k hk hlow => ?_, exec_ldKey_of_no_key,
    fun hruns hup n => ?_⟩
  · refine ⟨_, exec_ldKey_of_lowest hk hlow, ?_, rfl, rfl⟩
    rw [State.readReg_advance, State.readReg_writeReg_same, BitVec.toNat_ofNat]
    omega
  · exact ⟨_, run_keyWait hruns hup n, iterate_beginStep_pc n s, toNat_iterate_beginStep_dt n s,
      toNat_iterate_beginStep_st n s, iterate_beginStep_unchanged n s⟩

/-! ## Frames of the control forms (R101 to R108, R160, R161, D1) -/

section
variable {regs : List Reg} {parts : List Part} {s t u : State}

theorem UnchangedBut.setPC (h : UnchangedBut regs parts s t) (target : Word) :
    UnchangedBut regs parts s (t.setPC target) := by
  obtain ⟨hregs, hparts⟩ := h
  refine ⟨hregs, fun p hp => ?_⟩
  cases p <;> exact hparts _ hp

theorem UnchangedBut.skipIf (h : UnchangedBut regs parts s t) (c : Bool) : UnchangedBut regs parts s (t.skipIf c) := by
  cases c <;> exact h.setPC _

theorem UnchangedBut.push {ret : Word} (h : UnchangedBut regs parts s t) (hpart : .stack ∈ parts)
    (hpush : t.push ret = some u) : UnchangedBut regs parts s u := by
  obtain ⟨_, rfl⟩ := State.push_eq_some hpush
  exact h.updatePart hpart (fun _ => rfl) fun p => by cases p <;> simp [partUnchanged]

theorem UnchangedBut.pop {target : Word} (h : UnchangedBut regs parts s t) (hpart : .stack ∈ parts)
    (hpop : t.pop = some (target, u)) : UnchangedBut regs parts s u := by
  obtain ⟨_, -, rfl⟩ := State.pop_eq_some hpop
  exact h.updatePart hpart (fun _ => rfl) fun p => by cases p <;> simp [partUnchanged]

theorem exec_call_unchanged {addr : Addr} (h : exec (.call addr) s = .next t) : UnchangedBut [] [.stack] s t := by
  obtain ⟨u, hpush, rfl⟩ := execCall_next h
  exact ((UnchangedBut.refl _ _ s).push (by simp) hpush).setPC _

theorem exec_ret_unchanged (h : exec .ret s = .next t) : UnchangedBut [] [.stack] s t := by
  obtain ⟨target, u, hpop, rfl⟩ := execReturn_next h
  exact ((UnchangedBut.refl _ _ s).pop (by simp) hpop).setPC _

theorem skipOnKey_unchanged {x : Reg} {pressed : Bool} (h : skipOnKey x pressed s = .next t) :
    UnchangedBut [] [] s t := by
  obtain ⟨c, rfl⟩ := skipOnKey_next h
  exact (UnchangedBut.refl _ _ s).skipIf c

end

/-- Settles O42: a jump sets `PC` and a skip moves it on; what CALL and RETURN do to the slots is said with their
results. -/
theorem controlFormsChangeOnlyPcAndStack : Obligations.ControlFormsChangeOnlyPcAndStack := by
  refine ⟨fun x y kk addr s t => ?_, fun addr s t h => ?_, fun s t h => ?_⟩
  · have hjump (target : Word) : UnchangedBut [] [] s (s.setPC target) := (UnchangedBut.refl _ _ s).setPC target
    have hskip (c : Bool) : UnchangedBut [] [] s (s.skipIf c) := (UnchangedBut.refl _ _ s).skipIf c
    simp only [List.forall_mem_cons, List.not_mem_nil, false_imp_iff, implies_true, and_true]
    refine ⟨?jp, ?jpV0, ?seImm, ?sneImm, ?seReg, ?sneReg, skipOnKey_unchanged, skipOnKey_unchanged⟩
    case jp | jpV0 => rintro ⟨⟩; exact hjump _
    case seImm | sneImm | seReg | sneReg => rintro ⟨⟩; exact hskip _
  · obtain ⟨-, -, hothers⟩ := exec_call_stack h
    exact ⟨exec_call_unchanged h, hothers⟩
  · obtain ⟨-, -, hstack⟩ := exec_ret_stack h
    exact ⟨exec_ret_unchanged h, hstack⟩

end Sys2Proof.Safety

/-! # Host interface: what its operations answer, the frames of loads and key moves, the snapshot (50_host_interface.md)

Each operation that can fail is said once for each of its two answers (`loadProgram_of_fits`, `setKey_val` and their
refusals), and a step of the host once for what it leaves (`stateAfterStep_cases`). The invariant over every move of the
host is a case split over the moves that uses these. -/

namespace Sys2Proof.Machine

/-! ## What an operation answers (R174 to R178) -/

/-- `KEY[k] <- pressed` (R176). -/
def State.writeKey (s : State) (k : Fin 16) (pressed : Bool) : State :=
  { s with key := s.key.set k.val pressed k.isLt }

theorem State.writeKey_get (s : State) (k j : Fin 16) (pressed : Bool) :
    (s.writeKey k pressed).key.get j = if j = k then pressed else s.key.get j := by
  simp only [State.writeKey, Vector.get_eq_getElem, Vector.getElem_set, Fin.val_inj, eq_comm]

section
variable {bytes : List Byte} {index : Nat} {pressed : Bool} {s t : State}

theorem loadProgram_of_fits (h : bytes.length ≤ 3584) :
    loadProgram bytes s = .ok (s.setMem (Memory.writeBytes s.mem 0x200 bytes)) := if_pos h

theorem loadProgram_of_too_large (h : 3584 < bytes.length) : loadProgram bytes s = .error .programTooLarge :=
  if_neg h.not_ge

theorem setKey_val (k : Fin 16) : setKey k.val pressed s = .ok (s.writeKey k pressed) := dif_pos k.isLt

theorem setKey_of_no_key (h : 15 < index) : setKey index pressed s = .error .invalidKeyIndex :=
  dif_neg (Nat.not_lt.mpr h)

/-! The move that invokes an operation leaves the state that the operation answers, and refused leaves the core as it
was. -/

theorem HostMove.apply_load_of_ok (h : loadProgram bytes s = .ok t) : (HostMove.load bytes).apply s = t :=
  congrArg (unchangedOnError s) h

theorem HostMove.apply_load_of_error {e : InterfaceError} (h : loadProgram bytes s = .error e) :
    (HostMove.load bytes).apply s = s :=
  congrArg (unchangedOnError s) h

theorem HostMove.apply_key_of_ok (h : setKey index pressed s = .ok t) : (HostMove.key index pressed).apply s = t :=
  congrArg (unchangedOnError s) h

theorem HostMove.apply_key_of_error {e : InterfaceError} (h : setKey index pressed s = .error e) :
    (HostMove.key index pressed).apply s = s :=
  congrArg (unchangedOnError s) h

end

/-- What the host finds after a step (R178): the next state, the core as it was, or a core that has faulted. -/
theorem stateAfterStep_cases (s : State) :
    step s = .next (stateAfterStep s) ∨ stateAfterStep s = s ∨ ∃ c, (stateAfterStep s).fault = some c := by
  unfold stateAfterStep
  split
  next t h => exact .inl h
  next => exact .inr (.inl rfl)
  next f _ _ => exact .inr (.inr ⟨f.cause, rfl⟩)
  next => exact .inr (.inl rfl)

end Sys2Proof.Machine

namespace Sys2Proof.Safety

open Sys2Proof.Machine

/-! ## The invariant over the host's moves (R171, R191) -/

section
variable {s : State}

/-- A program that fits ends inside memory, so the canonical form is kept. -/
theorem InvUnlessFaulted.load {bytes : List Byte} (h : InvUnlessFaulted s) (hfits : bytes.length ≤ 3584) :
    InvUnlessFaulted (s.setMem (Memory.writeBytes s.mem 0x200 bytes)) := by
  intro hfault
  obtain ⟨hwf, hrest⟩ := h hfault
  exact ⟨Memory.writeBytes_wf _ _ hwf (Nat.add_le_add_left hfits 0x200), hrest⟩

/-- The key flags are nothing the invariant speaks of. -/
theorem InvUnlessFaulted.writeKey (h : InvUnlessFaulted s) (k : Fin 16) (pressed : Bool) :
    InvUnlessFaulted (s.writeKey k pressed) := h

/-- A step answers a next state only where the core has not faulted, so where the invariant holds. -/
theorem InvUnlessFaulted.stateAfterStep (h : InvUnlessFaulted s) : InvUnlessFaulted (stateAfterStep s) := by
  rcases stateAfterStep_cases s with hnext | hsame | ⟨c, hfault⟩
  · obtain ⟨hnone, -⟩ := step_next_cases hnext
    exact fun _ => stepKeepsTheInvariant s _ (h hnone) hnext
  · exact hsame.symm ▸ h
  · intro hnone
    rw [hnone] at hfault
    cases hfault

end

/-- Settles O50: each move leaves the reset state, the core as it was, or a state one of the rules above is for. -/
theorem everyHostMoveKeepsTheInvariant : Obligations.EveryHostMoveKeepsTheInvariant := by
  intro m s h
  cases m with
  | init =>
    obtain ⟨hreset, -⟩ := invariantHoldsAtReset
    exact fun _ => hreset
  | load bytes =>
    rcases Nat.lt_or_ge 3584 bytes.length with hlarge | hfits
    · rwa [HostMove.apply_load_of_error (loadProgram_of_too_large hlarge)]
    · rw [HostMove.apply_load_of_ok (loadProgram_of_fits hfits)]
      exact h.load hfits
  | key index pressed =>
    rcases Nat.lt_or_ge 15 index with hnone | hk
    · rwa [HostMove.apply_key_of_error (setKey_of_no_key hnone)]
    · rw [HostMove.apply_key_of_ok (setKey_val ⟨index, Nat.lt_succ_of_le hk⟩)]
      exact h.writeKey _ _
  | stepOnce => exact h.stateAfterStep

/-! ## Loading a program, and one key (R174 to R177) -/

/-- Settles O53: the load is one block written from 0x200. -/
theorem loadProgramCopiesItsBytes : Obligations.LoadProgramCopiesItsBytes := by
  refine fun bytes s => ⟨fun hfits => ?_, fun hlarge => ?_⟩
  · have hload := loadProgram_of_fits (s := s) hfits
    refine ⟨_, hload, HostMove.apply_load_of_ok hload, fun k b hb => ?_, fun a ha => ?_, rfl,
      (UnchangedBut.refl _ _ s).setMem (by simp) _⟩
    · simp [Memory.readByte_writeBytes, hb]
    · exact Memory.readByte_writeBytes_outside _ _ _ _ ha
  · have herror := loadProgram_of_too_large (s := s) hlarge
    exact ⟨herror, HostMove.apply_load_of_error herror⟩

theorem UnchangedBut.writeKey {regs : List Reg} {parts : List Part} {s t : State} (h : UnchangedBut regs parts s t)
    (hpart : .keys ∈ parts) (k : Fin 16) (pressed : Bool) : UnchangedBut regs parts s (t.writeKey k pressed) :=
  h.updatePart hpart (fun _ => rfl) fun p => by cases p <;> simp [partUnchanged, State.writeKey]

/-- Settles O55: an index up to 15 names a flag, and a higher one is refused. -/
theorem setKeyWritesOneFlag : Obligations.SetKeyWritesOneFlag := by
  refine fun index pressed s => ⟨?_, fun hhigh => ?_⟩
  · rintro k rfl
    have hset := setKey_val (pressed := pressed) (s := s) k
    refine ⟨_, hset, HostMove.apply_key_of_ok hset, ?_, fun j hj => ?_, rfl,
      (UnchangedBut.refl _ _ s).writeKey (by simp) k pressed⟩
    · rw [State.writeKey_get, if_pos rfl]
    · rw [State.writeKey_get, if_neg hj]
  · have herror := setKey_of_no_key (pressed := pressed) (s := s) hhigh
    exact ⟨herror, HostMove.apply_key_of_error herror⟩

/-! ## The accessors (R179, R180) -/

/-- The snapshot is the display as one vector of `32 * 64` pixels. -/
theorem displaySnapshot_eq_flatten (s : State) : displaySnapshot s = s.disp.flatten.toList := by
  rw [Vector.flatten, Vector.toList_mk, Array.toList_flatten, Array.toList_map, List.map_map]
  rfl

/-- Settles O56: pixel `64 * y + x` of the flattened display is pixel `x` of row `y`. -/
theorem snapshotIsRowMajor : Obligations.SnapshotIsRowMajor := by
  refine fun s => ⟨?_, fun x y => ?_, rfl⟩
  · rw [displaySnapshot_eq_flatten, Vector.length_toList]
  · have hin : 64 * y.val + x.val < 32 * 64 := by omega
    have hrow : (64 * y.val + x.val) / 64 = y.val := by omega
    have hcol : (64 * y.val + x.val) % 64 = x.val := by omega
    rw [displaySnapshot_eq_flatten, Vector.getElem?_toList, Vector.getElem?_eq_getElem hin, Vector.getElem_flatten]
    simp only [hrow, hcol, Display.pixel, Vector.get_eq_getElem]

end Sys2Proof.Safety

/-! # Fatal faults: the latch FAULT from the step that raises a fault to initialize (60_exceptions.md)

What a step that raises a fault can have met is said once (`step_fault_cases`), beside `step_next_cases` for the steps
that answer a next state. From it only a core that has faulted is stuck, so every other fault latches its cause. -/

namespace Sys2Proof.Machine

/-- A fatal fault latches its cause (R191). -/
theorem stateAfterStep_of_fault {s : State} {f : Fault} (h : step s = .fault f) (hf : ∀ c, f ≠ .stuck c) :
    stateAfterStep s = faultedState f s := by
  rw [stateAfterStep, h]
  cases f with
  | stuck c => exact absurd rfl (hf c)
  | memoryOutOfBounds | callStackOverflow | callStackUnderflow | keyIndexOutOfRange => rfl

end Sys2Proof.Machine

namespace Sys2Proof.Safety

open Sys2Proof.Machine

section
variable {i : Instr} {s : State} {f : Fault}

/-- An instruction raises no fault but the one its condition names. -/
theorem faultCondition_of_exec_fault (h : exec i s = .fault f) : faultCondition i s = some f := by
  obtain ⟨hcompletes, hfaults⟩ := instructionsCompleteUnlessTheirFault
  cases hcond : faultCondition i s with
  | none =>
    obtain ⟨t, hnext⟩ := hcompletes i s hcond
    cases hnext.symm.trans h
  | some g =>
    cases (hfaults i s g hcond).symm.trans h
    rfl

/-- No instruction is stuck: R192 to R195 name the four fatal faults alone. -/
theorem faultCondition_ne_stuck (i : Instr) (s : State) (c : FaultCause) : faultCondition i s ≠ some (.stuck c) := by
  cases i with
  | ret | call | drw | skp | sknp | ldB | storeRegs | loadRegs => simp [faultCondition]
  | sys | cls | jp | jpV0 | seImm | sneImm | seReg | sneReg | ldImm | addImm | ldReg | or | and | xor | addReg | sub
  | shr | subn | shl | rnd | ldI | addI | ldF | ldFromDT | ldKey | ldDT | ldST => nofun

/-- A step that raises a fault (R88, R90): the core was stuck, the fetch found no byte, or the fault condition of the
decoded instruction holds in the state the tick left. -/
theorem step_fault_cases (h : step s = .fault f) :
    (∃ c, s.fault = some c ∧ f = .stuck c) ∨
      s.fault = none ∧
        (s.beginStep.fetch = none ∧ f = .memoryOutOfBounds s.pc ∨
          ∃ w i, s.beginStep.fetch = some w ∧ decodeWord w = .ok i ∧ faultCondition i s.beginStep = some f) := by
  cases hfault : s.fault with
  | some c =>
    rw [step_of_fault hfault] at h
    cases h
    exact .inl ⟨c, rfl, rfl⟩
  | none =>
    refine .inr ⟨rfl, ?_⟩
    cases hfetch : s.beginStep.fetch with
    | none =>
      rw [step_of_fetch_none hfault hfetch] at h
      cases h
      exact .inl ⟨rfl, rfl⟩
    | some w =>
      cases hdecode : decodeWord w with
      | ok i =>
        rw [step_of_decode hfault hfetch hdecode] at h
        exact .inr ⟨w, i, rfl, hdecode, faultCondition_of_exec_fault h⟩
      | error e =>
        rw [step_of_decode_error hfault hfetch hdecode] at h
        cases h

/-- Only a core that has faulted already is stuck (R88). -/
theorem step_fault_ne_stuck (hnone : s.fault = none) (h : step s = .fault f) (c : FaultCause) : f ≠ .stuck c := by
  rintro rfl
  rcases step_fault_cases h with ⟨_, hsome, -⟩ | ⟨-, ⟨-, hbounds⟩ | ⟨_, i, -, -, hcond⟩⟩
  · rw [hnone] at hsome
    cases hsome
  · cases hbounds
  · exact faultCondition_ne_stuck i _ c hcond

end

/-- Settles O12: the fault is none of a stuck core, so the host finds its cause latched, and a latched core is stuck. -/
theorem faultSetsTheLatchUntilInitialize : Obligations.FaultSetsTheLatchUntilInitialize := by
  intro s f hnone h
  have hlatch : (hostStep s).1.fault = some f.cause := by
    rw [hostStep, stateAfterStep_of_fault h (step_fault_ne_stuck hnone h)]
    rfl
  obtain ⟨-, hstuck⟩ := faultedCoreIsStuck _ _ hlatch
  exact ⟨congrArg stepOutcome h, hlatch, congrArg Prod.fst hstuck, rfl, rfl⟩

end Sys2Proof.Safety

/-! # Reset and hazards: launch, the end of a run and running off the program (70_reset_and_hazards.md); and the two
statements left of encoding, decoding what was encoded and the unrecognized words (30_encoding.md)

A word is unrecognized when the decoder answers an error or `SYS` (`RecognizesNoForm`), which is said of each of its
arms. A run that has ended is one in which every step only ticks. A walk through zeroed memory is an induction on the
words left, whose step is the report of the word 0x0000. -/

namespace Sys2Proof

/-! ## Decoding what was encoded (R60, R66) -/

/-- Settles O1: the decoder reads the encoder's two bytes as the word, and the word as the instruction. -/
theorem decodeOfEncodeIsTheInstruction : Obligations.DecodeOfEncodeIsTheInstruction := by
  intro i rest h
  calc decode (encode i ++ rest)
    _ = (decodeWord (encodeWord i)).map (·, rest) := decode_bytes _ rest
    _ = .ok (i, rest) := by rw [decodeWord_encodeWord h, Except.map]

end Sys2Proof

namespace Sys2Proof.Safety

open Sys2Proof.Machine

/-! ## The unrecognized words (R68, D2, D3) -/

theorem toNat_fieldN3 (w : Word) : (fieldN3 w).toNat = w.toNat % 16 := by
  simp [fieldN3]

theorem fieldN3_eq_zero_iff (w : Word) : fieldN3 w = 0x0#4 ↔ w.toNat % 16 = 0 := by
  rw [← toNat_fieldN3, BitVec.toNat_eq]
  rfl

theorem toNat_fieldKK (w : Word) : (fieldKK w).toNat = w.toNat % 256 := by
  simp [fieldKK]

/-- The two answers with which the decoder recognizes no form: an error, and `SYS` (R67, R69). -/
def RecognizesNoForm (w : Word) : Except DecodeError Instr → Prop
  | .ok i => i = .sys (fieldAddr w)
  | .error e => e = .unrecognized w

section
variable (w : Word)

theorem recognized_eq_false_iff : recognized w = false ↔ RecognizesNoForm w (decodeWord w) := by
  refine ⟨fun h => ?_, fun h => ?_⟩
  · rcases decodeWord_of_not_recognized h with ⟨e, herror⟩ | ⟨addr, hsys, hword⟩
    · rw [herror]
      exact (decodeWord_error herror).1
    · rw [hsys, ← hword, addrOperand_eq_wordA, RecognizesNoForm, fieldAddr_wordA]
  · cases hdecode : decodeWord w with
    | ok i =>
      rw [hdecode] at h
      obtain rfl : i = .sys (fieldAddr w) := h
      rw [recognized, hdecode]
    | error e => rw [recognized, hdecode]

theorem decodeOp0_eq_sys_iff : decodeOp0 w = .sys (fieldAddr w) ↔ w ≠ 0x00E0#16 ∧ w ≠ 0x00EE#16 := by
  unfold decodeOp0
  split
  next hcls => simp [hcls]
  next hcls =>
    split
    next hret => simp [hret]
    next hret => simp [hcls, hret]

theorem decodeOp8_recognizesNoForm_iff : RecognizesNoForm w (decodeOp8 w) ↔
    w.toNat % 16 ∈ [0x8, 0x9, 0xA, 0xB, 0xC, 0xD, 0xF] := by
  have hlt := (fieldN3 w).isLt
  rw [← toNat_fieldN3, decodeOp8]
  split
  case h_10 =>
    simp only [RecognizesNoForm, List.mem_cons, List.not_mem_nil]
    grind
  all_goals next hn => simp [RecognizesNoForm, hn]

theorem decodeOpE_recognizesNoForm_iff : RecognizesNoForm w (decodeOpE w) ↔ w.toNat % 256 ∉ [0x9E, 0xA1] := by
  rw [← toNat_fieldKK, decodeOpE]
  split
  case h_3 hskp hsknp => simpa [RecognizesNoForm] using And.intro hskp hsknp
  all_goals next hkk => simp [RecognizesNoForm, hkk]

theorem decodeOpF_recognizesNoForm_iff : RecognizesNoForm w (decodeOpF w) ↔
    w.toNat % 256 ∉ [0x07, 0x0A, 0x15, 0x18, 0x1E, 0x29, 0x33, 0x55, 0x65] := by
  rw [← toNat_fieldKK, decodeOpF]
  split
  case h_10 => simp_all [RecognizesNoForm]
  all_goals next hkk => simp [RecognizesNoForm, hkk]

end

/-- Settles O4: of each major opcode, the words that its arm of the decoder recognizes as no form are those of its
line. -/
theorem unrecognizedWordsAreThoseListed : Obligations.UnrecognizedWordsAreThoseListed := by
  intro w
  rw [recognized_eq_false_iff, ListedUnrecognized, ← toNat_fieldOp, decodeWord]
  split
  case h_1 h => simp [h, RecognizesNoForm, decodeOp0_eq_sys_iff]
  case h_6 h | h_10 h =>
    split
    next hn => simp [h, RecognizesNoForm, (fieldN3_eq_zero_iff w).mp hn]
    next hn => simp [h, RecognizesNoForm, mt (fieldN3_eq_zero_iff w).mpr hn]
  case h_9 h => simp [h, decodeOp8_recognizesNoForm_iff]
  case h_15 h => simp [h, decodeOpE_recognizesNoForm_iff]
  case h_16 =>
    have hlt := (fieldOp w).isLt
    have h : (fieldOp w).toNat = 15 := by grind
    simp [h, decodeOpF_recognizesNoForm_iff]
  case h_2 h | h_3 h | h_4 h | h_5 h | h_7 h | h_8 h | h_11 h | h_12 h | h_13 h | h_14 h =>
    simp [h, RecognizesNoForm]

/-! ## Launch (R221, R222) -/

/-- Settles O54: `initialize` leaves `PC` at 0x200, where the load puts the first two bytes. -/
theorem loadedProgramIsFetchedAtReset : Obligations.LoadedProgramIsFetchedAtReset := by
  intro hi lo rest s hrest
  have hfits : (hi :: lo :: rest).length ≤ 3584 := Nat.add_le_add_right hrest 2
  have hpc : (hostInitialize s).pc.toNat = 0x200 := rfl
  refine ⟨_, loadProgram_of_fits hfits, rfl, rfl, hpc.trans_le (by decide), ?_⟩
  simp [hpc, Memory.readByte_writeBytes]

/-! ## The end of a run (R223, D24) -/

/-- Where a run has ended, the jump sets `PC` to what it is, so the step is the tick alone. -/
theorem step_of_runEnded {s : State} (h : RunEnded s) : step s = .next s.beginStep := by
  obtain ⟨addr, hruns, haddr⟩ := h
  have htarget : addrOperand addr = s.beginStep.pc := BitVec.eq_of_toNat_eq ((toNat_addrOperand addr).trans haddr)
  rw [step_of_runs hruns, exec, execJp, htarget]
  rfl

/-- The tick moves neither `PC` nor the jump at it. -/
theorem RunEnded.beginStep {s : State} (h : RunEnded s) : RunEnded s.beginStep := h

/-- Settles O57: the run is the iterated tick, which keeps the end of the run. -/
theorem selfJumpIsTheEndOfARun : Obligations.SelfJumpIsTheEndOfARun := by
  intro s h k
  have hrun := run_eq_iterate_beginStep (P := RunEnded) (fun _ => RunEnded.beginStep) (fun _ => step_of_runEnded) k h
  have hended := Function.Iterate.rec RunEnded h (fun _ => RunEnded.beginStep) k
  exact ⟨_, hrun, hended, iterate_beginStep_pc k s, toNat_iterate_beginStep_dt k s, toNat_iterate_beginStep_st k s,
    iterate_beginStep_unchanged k s⟩

/-! ## Running off the program (R235) -/

theorem UnchangedBut.trans {regs : List Reg} {parts : List Part} {s t u : State} (h : UnchangedBut regs parts s t)
    (h' : UnchangedBut regs parts t u) : UnchangedBut regs parts s u := by
  obtain ⟨hregs, hparts⟩ := h
  obtain ⟨hregs', hparts'⟩ := h'
  refine ⟨fun x hx => (hregs' x hx).trans (hregs x hx), fun p hp => ?_⟩
  have hst := hparts p hp
  have htu := hparts' p hp
  cases p with
  | stack => exact ⟨htu.1.trans hst.1, htu.2.trans hst.2⟩
  | memory => exact fun a => (htu a).trans (hst a)
  | _ => exact htu.trans hst

/-- A step at two zero bytes reports the word 0x0000 and passes over it (R68, R85). -/
theorem step_of_zero_bytes {s : State} (hfault : s.fault = none) (hpc : s.pc.toNat ≤ 0xFFE)
    (hhi : Memory.readByte s.mem s.pc.toNat = 0) (hlo : Memory.readByte s.mem (s.pc.toNat + 1) = 0) :
    step s = .next (reportUnrecognized 0x0000#16 s.beginStep) := by
  have hfetches : Fetches s 0x0000#16 := ⟨hfault, hpc, by rw [hhi, hlo]; rfl⟩
  exact step_of_unrecognized hfetches (by decide)

/-- Settles O58: by induction on the words left before 0x1000. -/
theorem zeroMemoryIsWalkedThroughToTheEnd : Obligations.ZeroMemoryIsWalkedThroughToTheEnd := by
  intro k
  induction k with
  | zero =>
    intro s hfault hpc _
    have hend : s.pc = 0x1000#16 := BitVec.eq_of_toNat_eq hpc
    have hnone : s.beginStep.fetch = none := (State.fetch_eq_none _).mpr (by simp [hend])
    exact ⟨s, rfl, hend, .refl _ _ s, hend ▸ step_of_fetch_none hfault hnone⟩
  | succ k ih =>
    intro s hfault hpc hzero
    have hstep := step_of_zero_bytes hfault (by omega) (hzero _ (by omega) (by omega)) (hzero _ (by omega) (by omega))
    have hpc' : (s.pc + 2).toNat = s.pc.toNat + 2 := by bv_omega
    obtain ⟨t, hrun, hend, hframe, hlast⟩ := ih (reportUnrecognized 0x0000#16 s.beginStep) hfault
      (show (s.pc + 2).toNat + 2 * k = 0x1000 by omega)
      (fun a (ha : (s.pc + 2).toNat ≤ a) ha' => hzero a (by omega) ha')
    exact ⟨t, (run_succ_of_step k hstep).trans hrun, hend,
      (reportUnrecognized_beginStep_unchanged _ s).trans hframe, hlast⟩

end Sys2Proof.Safety
